-- ==== Sys2Proof/Word.lean ====
section
/-!
DEFINITION. The word of the machine: the content of a memory cell (00_scope.md R7; log 9).
-/

namespace Sys2Proof

/-- One memory location's content, and every operand and result: a W-bit two's-complement value, held as the signed
integer of 00_scope.md R7. W is a parameter of the machine (R6, `Params.width`), not of this type; that every cell lies in
the range of W bits is an invariant (log 9). -/
abbrev Cell : Type := Int

end Sys2Proof
end

