-- ==== Sys2Proof/Machine/Flags.lean ====
section
/-!
DEFINITION. The machine has no flags (10_state.md R15). What an arithmetic result is tested for is `fits_W`, and what is
stored of it is `wrap_W` (00_scope.md R9).
-/

namespace Sys2Proof.Machine

/-- `wrap_W(n)`: the W-bit signed value equal to n modulo 2^W (00_scope.md R9). -/
def wrapW (w : Nat) (n : Int) : Cell := Int.bmod n (2 ^ w)

/-- `fits_W(n)`: -2^(W-1) <= n < 2^(W-1) (00_scope.md R9). -/
def fitsW (w : Nat) (n : Int) : Bool :=
  decide (-2 ^ (w - 1) ≤ n) && decide (n < 2 ^ (w - 1))

end Sys2Proof.Machine
end

