-- ==== Sys2Proof/Syntax.lean ====
section
/-!
DEFINITION. The instructions, one constructor for each row of spec/opcode_table.json, and the items of the assembly
syntax (30_encoding.md R55, R56, R62).
-/

namespace Sys2Proof

/-- The instructions (30_encoding.md R61). An OP3 instruction holds its three raw operands, the whole contents of the
cells after the opcode (R55, R58). An operand is `none` when its cell does not exist, since the opcode alone makes
the instruction (R57) and the missing cell counts only when it is read (20_memory.md R34; log 8). -/
inductive Instr where
  /-- opcode 1, format OP3 (40_arithmetic.md R65) -/
  | add (p1 p2 p3 : Option Cell)
  /-- opcode 2, format OP3 (40_arithmetic.md R66) -/
  | mul (p1 p2 p3 : Option Cell)
  /-- opcode 99, format OP0 (41_halt.md R69) -/
  | halt
  deriving DecidableEq, Repr

/-- The opcode cell of an instruction (30_encoding.md R61). -/
def Instr.opcode : Instr → Cell
  | .add _ _ _ => 1
  | .mul _ _ _ => 2
  | .halt => 99

/-- The length in cells, decided by the opcode alone (30_encoding.md R57). -/
def Instr.length : Instr → Nat
  | .add _ _ _ => 4
  | .mul _ _ _ => 4
  | .halt => 1

/-- One item of an assembly text: `ADD p1, p2, p3`, `MUL p1, p2, p3`, `HALT`, `.data v1, v2, ...`
(30_encoding.md R62). -/
inductive AsmItem where
  | add (p1 p2 p3 : Cell)
  | mul (p1 p2 p3 : Cell)
  | halt
  | data (vs : List Cell)
  deriving DecidableEq, Repr

end Sys2Proof
end

