-- ==== Sys2Proof/WellFormed.lean ====
section
/-!
DEFINITION. When an instruction can stand in memory: its operand cells follow the opcode cell, so an operand cell
exists only if the one before it does (30_encoding.md R55, 20_memory.md R28).
-/

namespace Sys2Proof

/-- The cell after a missing cell is missing too, since the valid addresses are 0 <= a < SIZE (20_memory.md R28). -/
def operandOrderOk (earlier later : Option Cell) : Bool :=
  earlier.isSome || later.isNone

/-- The check of an instruction. -/
def Instr.wellFormed : Instr → Bool
  | .add p1 p2 p3 => operandOrderOk p1 p2 && operandOrderOk p2 p3
  | .mul p1 p2 p3 => operandOrderOk p1 p2 && operandOrderOk p2 p3
  | .halt => true

/-- The instruction can stand in memory. -/
abbrev WellFormed (i : Instr) : Prop := i.wellFormed = true

/-- All cells of the instruction exist. -/
def Instr.whole : Instr → Bool
  | .add p1 p2 p3 => p1.isSome && p2.isSome && p3.isSome
  | .mul p1 p2 p3 => p1.isSome && p2.isSome && p3.isSome
  | .halt => true

/-- The instruction is not cut short by the end of memory. -/
abbrev Whole (i : Instr) : Prop := i.whole = true

end Sys2Proof
end

