-- ==== Sys2Proof/Decode.lean ====
section
/-!
DEFINITION. The decoder, total on any cells; the encoder; the assembler of 30_encoding.md R62; the host's reading of
an opcode-table word.
-/

namespace Sys2Proof

/-- Why cells decode to no instruction. -/
inductive DecodeError where
  /-- the opcode is none of 1, 2, 99 (30_encoding.md R59) -/
  | unknownOpcode (op : Cell)
  /-- there is no opcode cell at all; no run decodes there (42_controller.md R77) -/
  | noOpcodeCell
  deriving DecidableEq, Repr

/-- Decode the cells that exist from the instruction pointer on. The opcode is the whole first cell, compared with 1, 2
and 99 and nothing else (30_encoding.md R54, R59); it is classified before any operand cell matters
(60_exceptions.md R107). An operand cell beyond the end is absent, never an error of the decoder (log 8). -/
def decode : List Cell → Except DecodeError Instr
  | [] => .error .noOpcodeCell
  | op :: ps =>
    if op = 1 then .ok (.add ps[0]? ps[1]? ps[2]?)
    else if op = 2 then .ok (.mul ps[0]? ps[1]? ps[2]?)
    else if op = 99 then .ok .halt
    else .error (.unknownOpcode op)

/-- The operand cells that exist, in address order (30_encoding.md R55). -/
def operandCells (p1 p2 p3 : Option Cell) : List Cell :=
  p1.toList ++ p2.toList ++ p3.toList

/-- The cells of a well-formed instruction: format OP3 or OP0 (30_encoding.md R55, R56, R61). -/
def encode : Instr → List Cell
  | .add p1 p2 p3 => 1 :: operandCells p1 p2 p3
  | .mul p1 p2 p3 => 2 :: operandCells p1 p2 p3
  | .halt => [99]

/-- The cells of one assembly item (30_encoding.md R62). -/
def AsmItem.cells : AsmItem → List Cell
  | .add p1 p2 p3 => [1, p1, p2, p3]
  | .mul p1 p2 p3 => [2, p1, p2, p3]
  | .halt => [99]
  | .data vs => vs

/-- An assembled program "is the concatenation of its cells from address 0" (30_encoding.md R62). -/
def assemble (items : List AsmItem) : List Cell :=
  items.flatMap AsmItem.cells

/-- The four cells, the longest instruction, of an opcode-table word: cell k holds bits 64k+63 to 64k, read as signed
(the table is at W = 64), and the bits from nbits on are 0. -/
def tableCells (nbits w : Nat) : List Cell :=
  [0, 1, 2, 3].map fun k => Machine.wrapW 64 ((w % 2 ^ nbits) / 2 ^ (64 * k) : Nat)

/-- What the decoder reads from an opcode-table word. -/
def decodeTableWord (nbits w : Nat) : Option Instr :=
  (decode (tableCells nbits w)).toOption

end Sys2Proof
end

