-- ==== Sys2Proof/Machine/Types.lean ====
section
/-!
DEFINITION. The closed sets of names and the records the state is made of: addressing modes, controller states, the
failure record, trace records, host commands, responses, and what the outside can do to the machine.
-/

namespace Sys2Proof.Machine

/-- The addressing modes, "a small closed enumeration" of three tags (20_memory.md R38). -/
inductive AddressMode where
  | position
  | immediate
  /-- the display-only tag; it resolves exactly as `position` (20_memory.md R39) -/
  | display
  deriving DecidableEq, Repr, Inhabited

/-- What Add and Multiply do when the exact result does not fit in W bits (00_scope.md R6). -/
inductive OverflowMode where
  /-- keep the low W bits -/
  | wrap
  /-- fail the run with Overflow -/
  | fault
  deriving DecidableEq, Repr, Inhabited

/-- `OPERAND_MODES[op][1..3]` of one opcode (00_scope.md R6). -/
structure OperandModes where
  m1 : AddressMode
  m2 : AddressMode
  m3 : AddressMode
  deriving DecidableEq, Repr, Inhabited

/-- `CTL_STATE` (10_state.md R16). -/
inductive CtlState where
  | ready
  | running
  | halted
  | failed
  deriving DecidableEq, Repr, Inhabited

/-- `FAIL.kind` (10_state.md R18, 60_exceptions.md R97). -/
inductive FailKind where
  | none
  | emptyProgram
  | unknownOpcode
  | outOfRange
  | missingHalt
  | overflow
  deriving DecidableEq, Repr, Inhabited

/-- `FAIL.access` (10_state.md R18). -/
inductive Access where
  | none
  | read
  | write
  deriving DecidableEq, Repr, Inhabited

/-- `FAIL` (10_state.md R18). `opcode` and `addr` hold W-bit values; `ip` is an integer, as `ip` is. -/
structure FailRecord where
  kind   : FailKind
  ip     : Nat
  opcode : Cell
  addr   : Cell
  access : Access
  deriving DecidableEq, Repr, Inhabited

/-- An access that `MemRead` or `MemWrite` turned away: the `info` of OutOfRange (20_memory.md R31, R32). The address
is the integer that was checked, never reduced (20_memory.md R30). -/
structure BadAccess where
  addr   : Int
  access : Access
  deriving DecidableEq, Repr

/-- What `raise` is given: a kind with its info (00_scope.md R9, 60_exceptions.md R105). -/
inductive Failure where
  | emptyProgram
  | unknownOpcode (op : Cell)
  | outOfRange (bad : BadAccess)
  | missingHalt
  | overflow
  deriving DecidableEq, Repr

/-- The opcode names a trace record reports (30_encoding.md R63). -/
inductive TraceName where
  | add
  | multiply
  | halt
  deriving DecidableEq, Repr

/-- What a trace record says an operand resolved to (42_controller.md R86): a source's value or the destination's
address. -/
inductive Resolved where
  | value (v : Cell)
  | address (a : Int)
  deriving DecidableEq, Repr

/-- One operand of a trace record: mode tag, raw stored value (absent for a destination cell that does not exist),
resolved value (42_controller.md R86). -/
structure OperandTrace where
  mode     : AddressMode
  raw      : Option Cell
  resolved : Resolved
  deriving DecidableEq, Repr

/-- One trace record (42_controller.md R86): a Halt reports no operand. -/
structure TraceRecord where
  name     : TraceName
  ip       : Nat
  operands : List OperandTrace
  deriving DecidableEq, Repr

/-- Every field STATUS returns but `CTL_STATE` (42_controller.md R93). -/
structure StatusRest where
  fail    : FailRecord
  ip      : Nat
  size    : Nat
  traceEn : Bool
  deriving DecidableEq, Repr, Inhabited

/-- The six host commands and their arguments (42_controller.md R88); a and v are W-bit values. A PEEK or POKE without a
mode uses HOST_MODE_DEFAULT (00_scope.md R6). -/
inductive Command where
  | loadClear
  | loadAppend (v : Cell)
  | peek (a : Cell) (mode : Option AddressMode)
  | poke (a v : Cell) (mode : Option AddressMode)
  | run (t : Bool)
  | status
  deriving DecidableEq, Repr

/-- The command signals of the port (42_controller.md R95): `cmd_op`, `cmd_addr`, `cmd_data`, `cmd_mode`,
`cmd_trace`. -/
structure CommandPort where
  op    : BitVec 3
  addr  : Cell
  data  : Cell
  mode  : BitVec 2
  trace : Bool
  deriving DecidableEq, Repr

/-- The responses (42_controller.md R88) with what each carries. -/
inductive Response where
  | ok
  /-- PEEK's OK -/
  | okValue (v : Cell)
  /-- STATUS's OK -/
  | okStatus (ctl : CtlState) (rest : StatusRest)
  | busy
  | outOfRange (addr : Cell)
  | runRejected
  | loadTooLarge
  | notLoading
  | runFailed (fail : FailRecord)
  deriving DecidableEq, Repr

/-- One thing the outside does to the machine, between two cycles (42_controller.md R80, R88, R95; log 4). -/
inductive Input where
  /-- `rst` is asserted (70_reset_and_hazards.md R115) -/
  | rst
  /-- a host command at the command level (42_controller.md R88 to R94) -/
  | command (c : Command)
  /-- `cmd_valid` is high with these signals; the command is taken if `cmd_ready` is (42_controller.md R95) -/
  | port (p : CommandPort)
  /-- the host does nothing while the core makes one step of its own -/
  | idle
  /-- the host takes the oldest response (`rsp_ready`, 42_controller.md R95) -/
  | takeResponse
  /-- the trace consumer takes the oldest record (`tr_ready`, 42_controller.md R95) -/
  | takeTrace
  deriving DecidableEq, Repr

end Sys2Proof.Machine
end

