-- ==== Sys2Proof/Config.lean ====
section
/-!
DEFINITION. What one implementation fixes: the parameters of 00_scope.md R6, and the values the spec leaves open.
-/

namespace Sys2Proof

/-- The implementation parameters of 00_scope.md R6. They are data of a machine's state that no step changes, so that a
statement about every state is one about every choice of them (log 2). -/
structure Params where
  /-- W -/
  width           : Nat
  /-- OVERFLOW_MODE -/
  overflowMode    : Machine.OverflowMode
  /-- OPERAND_MODES[1][1..3] -/
  addModes        : Machine.OperandModes
  /-- OPERAND_MODES[2][1..3] -/
  mulModes        : Machine.OperandModes
  /-- HOST_MODE_DEFAULT -/
  hostModeDefault : Machine.AddressMode
  /-- MEM_CAP -/
  memCap          : Nat
  deriving DecidableEq, Repr

/-- How far the implementation's MEM_CAP lies above 1. No body: 00_scope.md R6 leaves MEM_CAP OPEN between 1 and
2^(W-1) - 4, which at W = 64 is 2^63 - 4 (log 3). -/
opaque Config.memCapAboveOne : Fin (9223372036854775803 + 1)

/-- MEM_CAP of the machine after reset, any number from 1 to 2^63 - 4 (00_scope.md R6, log 3). -/
def Config.memCap : Nat := Config.memCapAboveOne.val + 1

/-- What STATUS shows beside CTL_STATE during a run: "every field but `CTL_STATE` may hold any value"
(42_controller.md R93). No body; the argument numbers the steps made in runs (log 7). -/
opaque Config.freeStatus : Nat → Machine.StatusRest

/-- Position mode for all three operands, the normative default (00_scope.md R6). -/
def OperandModes.allPosition : Machine.OperandModes :=
  { m1 := .position, m2 := .position, m3 := .position }

/-- The parameters at the values 00_scope.md R6 gives them, with the open MEM_CAP (log 2, log 3). -/
def Params.default : Params :=
  { width := 64
    overflowMode := .wrap
    addModes := OperandModes.allPosition
    mulModes := OperandModes.allPosition
    hostModeDefault := .immediate
    memCap := Config.memCap }

end Sys2Proof
end

