-- ==== Sys2Proof/Machine/State.lean ====
section
/-!
DEFINITION. The state of one CORE, its reset, and the reasons a step can stop.
-/

namespace Sys2Proof.Machine

/-- The memory cells as (address, cell) pairs in one canonical form: addresses strictly rising and no pair with value
0; a cell below SIZE with no pair holds 0 (`Memory.wf`, log 1). -/
abbrev Memory : Type := List (Nat × Cell)

/-- The state of one CORE instance: the table of 10_state.md R11, the channels of 70_reset_and_hazards.md R115, the
parameters of 00_scope.md R6, what the host will do, and the counter of free values. -/
structure State where
  /-- the instruction pointer (10_state.md R12) -/
  ip             : Nat
  /-- `CTL_STATE` (10_state.md R16) -/
  ctl            : CtlState
  /-- `FAIL` (10_state.md R18) -/
  fail           : FailRecord
  /-- `SIZE` (10_state.md R19) -/
  size           : Nat
  /-- `MEM[0..SIZE-1]` (10_state.md R20) -/
  mem            : Memory
  /-- `TRACE_EN` (10_state.md R21) -/
  traceEn        : Bool
  /-- the implementation parameters (00_scope.md R6, log 2) -/
  params         : Params
  /-- what the host will do, in order (42_controller.md R88; the model's own list, log 4) -/
  inputs         : List Input
  /-- a command was taken at the port and its response not yet: `cmd_ready` is low (42_controller.md R95, log 6) -/
  cmdOutstanding : Bool
  /-- responses sent and not yet taken, oldest first (42_controller.md R95, log 6) -/
  responses      : List Response
  /-- trace records sent and not yet taken, oldest first (42_controller.md R95, log 6) -/
  trace          : List TraceRecord
  /-- the model's own counter of the steps made in runs, which numbers the free values (42_controller.md R93, log 7) -/
  freeCount      : Nat
  deriving DecidableEq, Repr

/-- The faults of the model: none. The spec gives every step an effect; a run's failure is a next state with
CTL_STATE = Failed (60_exceptions.md R105). Safe: nothing raises one. -/
inductive Fault where
  deriving DecidableEq, Repr

/-- The refusals of the model. -/
inductive Refusal where
  /-- An instruction without a meaning: nothing raises it, every instruction has its meaning. Safe. -/
  | notModelled (mnemonic : String)
  deriving DecidableEq, Repr

/-- `FAIL` with every field 0 (10_state.md R18). -/
def FailRecord.clear : FailRecord :=
  { kind := .none, ip := 0, opcode := 0, addr := 0, access := .none }

/-- The state right after reset, for the parameters of an implementation (70_reset_and_hazards.md R115). The model's
own counter is 0 (DESIGN CHOICE, log 7), and the host has nothing planned (log 4). -/
def State.resetWith (params : Params) : State :=
  { ip := 0
    ctl := .ready
    fail := FailRecord.clear
    size := 0
    mem := []
    traceEn := false
    params := params
    inputs := []
    cmdOutstanding := false
    responses := []
    trace := []
    freeCount := 0 }

/-- The machine right after reset (70_reset_and_hazards.md R115), with the parameters at the values 00_scope.md R6
gives. -/
def State.reset : State := State.resetWith Params.default

end Sys2Proof.Machine
end

