-- ==== Sys2Proof/Machine/Ops.lean ====
section
/-!
DEFINITION. The operations the instructions and the host commands share: the cells of memory, MemRead and MemWrite, the
address resolver, the trace port, the end of a run and the failure entry, the advance of ip, and the fetch.
-/

namespace Sys2Proof.Machine

/-! ## The list of cells (log 1) -/

/-- The value the list gives an address: 0 where no pair names it. -/
def Memory.get : Memory → Nat → Cell
  | [], _ => 0
  | (k, w) :: m, a => if k = a then w else Memory.get m a

/-- The list without an address. -/
def Memory.erase (m : Memory) (a : Nat) : Memory := m.filter fun c => decide (c.1 ≠ a)

/-- The list with a pair put at its place in the order of addresses. -/
def Memory.insert : Memory → Nat → Cell → Memory
  | [], a, v => [(a, v)]
  | (k, w) :: m, a, v =>
    if a < k then (a, v) :: (k, w) :: m
    else if a = k then (a, v) :: m
    else (k, w) :: Memory.insert m a v

/-- The list after cell a becomes v; the value 0 needs no pair. -/
def Memory.put (m : Memory) (a : Nat) (v : Cell) : Memory :=
  if v = 0 then Memory.erase m a else Memory.insert m a v

/-- The list with consecutive cells from an address on. -/
def Memory.putAll (m : Memory) (a : Nat) : List Cell → Memory
  | [] => m
  | v :: vs => Memory.putAll (Memory.put m a v) (a + 1) vs

/-- The canonical form from an address on: addresses strictly rising, no value 0. -/
def Memory.wfFrom : Nat → Memory → Bool
  | _, [] => true
  | lo, (k, w) :: m => decide (lo ≤ k) && decide (w ≠ 0) && Memory.wfFrom (k + 1) m

/-- The canonical form: equal memories are equal lists. -/
def Memory.wf (m : Memory) : Bool := Memory.wfFrom 0 m

/-- Every pair names an address below SIZE: cells at or beyond SIZE do not exist (10_state.md R20). -/
def Memory.below (m : Memory) (size : Nat) : Bool := m.all fun c => decide (c.1 < size)

/-- Every pair holds a W-bit value (00_scope.md R7). -/
def Memory.fits (w : Nat) (m : Memory) : Bool := m.all fun c => fitsW w c.2

/-! ## Access primitives (20_memory.md R28 to R32) -/

/-- The valid addresses are exactly 0 <= a < SIZE, compared as integers (20_memory.md R28, R30). -/
def validAddr (a : Int) (s : State) : Bool := decide (0 ≤ a) && decide (a < s.size)

/-- The content of cell a, where the cell exists (10_state.md R20). -/
def cellAt (a : Int) (s : State) : Option Cell :=
  if validAddr a s then some (Memory.get s.mem a.toNat) else none

/-- `MemRead(a, 1)` (20_memory.md R31). -/
def memRead (a : Int) (s : State) : Except BadAccess Cell :=
  match cellAt a s with
  | some v => .ok v
  | none => .error { addr := a, access := .read }

/-- `MemWrite(a, 1, v)` (20_memory.md R32). -/
def memWrite (a : Int) (v : Cell) (s : State) : Except BadAccess State :=
  if validAddr a s then .ok { s with mem := Memory.put s.mem a.toNat v }
  else .error { addr := a, access := .write }

/-! ## The address resolver (20_memory.md R38 to R44) -/

/-- `resolve_read`, given what reading the operand cell gave: under Immediate that is the value; under Position, and
Display its other name, it is the address of the value (20_memory.md R39 to R41, R44). -/
def readThrough (raw : Except BadAccess Cell) (mode : AddressMode) (s : State) : Except BadAccess Cell :=
  match mode with
  | .immediate => raw
  | .position => raw.bind fun a => memRead a s
  | .display => raw.bind fun a => memRead a s

/-- `resolve_write`, given the operand cell's address c and what reading that cell gave (or would give: Immediate makes
no access): the target address (20_memory.md R39, R42 to R44). -/
def writeThrough (c : Int) (raw : Except BadAccess Cell) (mode : AddressMode) : Except BadAccess Int :=
  match mode with
  | .immediate => .ok c
  | .position => raw
  | .display => raw

/-- `resolve_read(c, mode)` (20_memory.md R39 to R41). -/
def resolveRead (c : Int) (mode : AddressMode) (s : State) : Except BadAccess Cell :=
  readThrough (memRead c s) mode s

/-- `resolve_write(c, mode)` (20_memory.md R39, R42, R43). -/
def resolveWrite (c : Int) (mode : AddressMode) (s : State) : Except BadAccess Int :=
  writeThrough c (memRead c s) mode

/-! ## The channels (42_controller.md R86 to R88) -/

/-- Send one response to the host (42_controller.md R88). -/
def respond (r : Response) (s : State) : State := { s with responses := s.responses ++ [r] }

/-- `emit_trace(record)`: only when TRACE_EN is set (00_scope.md R9, 42_controller.md R86, R87). -/
def emitTrace (r : TraceRecord) (s : State) : State :=
  { s with trace := if s.traceEn then s.trace ++ [r] else s.trace }

/-! ## The end of a run (42_controller.md R81, 60_exceptions.md R105) -/

/-- The `FAIL` record of a failure raised at an ip; a field the kind does not use holds 0 (60_exceptions.md R105,
10_state.md R18). -/
def Failure.record (f : Failure) (ip : Nat) : FailRecord :=
  match f with
  | .emptyProgram => { FailRecord.clear with kind := .emptyProgram, ip := ip }
  | .unknownOpcode op => { FailRecord.clear with kind := .unknownOpcode, ip := ip, opcode := op }
  | .outOfRange bad =>
    { FailRecord.clear with kind := .outOfRange, ip := ip, addr := bad.addr, access := bad.access }
  | .missingHalt => { FailRecord.clear with kind := .missingHalt, ip := ip }
  | .overflow => { FailRecord.clear with kind := .overflow, ip := ip }

/-- `raise K(info)` inside a run or an accepted RUN: the failure entry (60_exceptions.md R105); the RUN command gets
RunFailed with `FAIL` (42_controller.md R81, log 5). There is no return from it (60_exceptions.md R109). -/
def raise (f : Failure) (s : State) : State :=
  { s with
    fail := f.record s.ip
    ctl := .failed
    responses := s.responses ++ [.runFailed (f.record s.ip)] }

/-- `CTL_STATE <- Halted` (41_halt.md R69); the RUN command gets OK (42_controller.md R81, log 5). -/
def haltRun (s : State) : State :=
  { s with ctl := .halted, responses := s.responses ++ [.ok] }

/-- `advance()`: ip <- ip + 4, then the MissingHalt check (42_controller.md R78, R79). -/
def advance (s : State) : State :=
  if s.size ≤ s.ip + 4 then raise .missingHalt { s with ip := s.ip + 4 }
  else { s with ip := s.ip + 4 }

/-! ## The fetch (30_encoding.md R53, 20_memory.md R49) -/

/-- The cells that exist from ip on, at most the four of the longest instruction, read from MEM in the cycle that
executes them (20_memory.md R49). -/
def fetchCells (s : State) : List Cell :=
  (List.range (min 4 (s.size - s.ip))).map fun k => Memory.get s.mem (s.ip + k)

end Sys2Proof.Machine
end

