-- ==== Sys2Proof/Machine/Operands.lean ====
section
/-!
DEFINITION. The operands of format OP3 and the execution sequence ADD and MUL share (40_arithmetic.md R64).
-/

namespace Sys2Proof.Machine

/-- What reading the operand cell at address c gives, from the raw operand the decoder found there: OutOfRange when the
cell does not exist (20_memory.md R31, R34). -/
def operandCell (c : Int) (p : Option Cell) : Except BadAccess Cell :=
  match p with
  | some v => .ok v
  | none => .error { addr := c, access := .read }

/-- What the three operands of an OP3 instruction resolve to. -/
structure Op3Operands where
  v1  : Cell
  v2  : Cell
  dst : Int
  deriving DecidableEq, Repr

/-- The three resolutions, source 1 first, then source 2, then the destination (40_arithmetic.md R64,
60_exceptions.md R107): the first access that fails is the one reported. -/
def resolveOperands (ms : OperandModes) (p1 p2 p3 : Option Cell) (s : State) : Except BadAccess Op3Operands :=
  (readThrough (operandCell (s.ip + 1) p1) ms.m1 s).bind fun v1 =>
  (readThrough (operandCell (s.ip + 2) p2) ms.m2 s).bind fun v2 =>
  (writeThrough (s.ip + 3) (operandCell (s.ip + 3) p3) ms.m3).bind fun dst =>
  .ok { v1 := v1, v2 := v2, dst := dst }

/-- The trace record of an ADD or MUL (42_controller.md R86). -/
def op3Record (name : TraceName) (ms : OperandModes) (p1 p2 p3 : Option Cell) (o : Op3Operands) (ip : Nat) :
    TraceRecord :=
  { name := name
    ip := ip
    operands :=
      [ { mode := ms.m1, raw := p1, resolved := .value o.v1 },
        { mode := ms.m2, raw := p2, resolved := .value o.v2 },
        { mode := ms.m3, raw := p3, resolved := .address o.dst } ] }

/-- The end of the sequence, once the operands are resolved: the exact result, the overflow check, the write, the advance
(40_arithmetic.md R64, 42_controller.md R78, R79). -/
def op3Finish (n : Int) (dst : Int) (s : State) : State :=
  if !fitsW s.params.width n && decide (s.params.overflowMode = .fault) then raise .overflow s
  else
    match memWrite dst (wrapW s.params.width n) s with
    | .error bad => raise (.outOfRange bad) s
    | .ok t => advance t

/-- `OP3_execute(op, f)` followed by `advance()` (40_arithmetic.md R64, 42_controller.md R76). -/
def op3Execute (name : TraceName) (f : Int → Int → Int) (ms : OperandModes) (p1 p2 p3 : Option Cell) (s : State) :
    State :=
  match resolveOperands ms p1 p2 p3 s with
  | .error bad => raise (.outOfRange bad) s
  | .ok o => op3Finish (f o.v1 o.v2) o.dst (emitTrace (op3Record name ms p1 p2 p3 o s.ip) s)

end Sys2Proof.Machine
end

