-- ==== Sys2Proof/Machine/Arithmetic.lean ====
section
/-!
DEFINITION. The arithmetic instructions ADD and MUL (40_arithmetic.md R65, R66).
-/

namespace Sys2Proof.Machine

/-- ADD: f(a, b) = a + b with the modes OPERAND_MODES[1] (40_arithmetic.md R64, R65). -/
def execAdd (p1 p2 p3 : Option Cell) (s : State) : Host.Outcome State Fault Refusal :=
  .next (op3Execute .add (fun a b => a + b) s.params.addModes p1 p2 p3 s)

/-- MUL: f(a, b) = a * b with the modes OPERAND_MODES[2] (40_arithmetic.md R64, R66). -/
def execMul (p1 p2 p3 : Option Cell) (s : State) : Host.Outcome State Fault Refusal :=
  .next (op3Execute .multiply (fun a b => a * b) s.params.mulModes p1 p2 p3 s)

end Sys2Proof.Machine
end

