-- ==== Sys2Proof/Machine/Halt.lean ====
section
/-!
DEFINITION. The instruction HALT (41_halt.md R69, R70).
-/

namespace Sys2Proof.Machine

/-- HALT: trace the name and ip, then CTL_STATE <- Halted; ip is not advanced (41_halt.md R69, R70). -/
def execHalt (s : State) : Host.Outcome State Fault Refusal :=
  .next (haltRun (emitTrace { name := .halt, ip := s.ip, operands := [] } s))

end Sys2Proof.Machine
end

