-- ==== Sys2Proof/Machine/Dispatch.lean ====
section
/-!
DEFINITION. One arm for each instruction (42_controller.md R76).
-/

namespace Sys2Proof.Machine

def exec (i : Instr) (s : State) : Host.Outcome State Fault Refusal :=
  match i with
  | .add p1 p2 p3 => Sys2Proof.Machine.execAdd p1 p2 p3 s
  | .mul p1 p2 p3 => Sys2Proof.Machine.execMul p1 p2 p3 s
  | .halt => Sys2Proof.Machine.execHalt s

end Sys2Proof.Machine
end

