-- ==== Sys2Proof/Machine/HostCommands.lean ====
section
/-!
DEFINITION. The host's commands and their responses (42_controller.md R72 to R75, R88 to R94), the port's encodings
(R95), and reset (70_reset_and_hazards.md R115).
-/

namespace Sys2Proof.Machine

/-! ## The commands outside a run -/

/-- The command with its arguments as the W-bit values they are (42_controller.md R88, R95): the W bits of an integer
that is none (log 9). -/
def Command.narrow (w : Nat) : Command → Command
  | .loadClear => .loadClear
  | .loadAppend v => .loadAppend (wrapW w v)
  | .peek a mode => .peek (wrapW w a) mode
  | .poke a v mode => .poke (wrapW w a) (wrapW w v) mode
  | .run t => .run t
  | .status => .status

/-- LOAD_CLEAR: the old cells cease to exist (42_controller.md R89). -/
def loadClear (s : State) : State :=
  { s with size := 0, mem := [], ip := 0, fail := FailRecord.clear, traceEn := false, ctl := .ready }

/-- LOAD_APPEND(v), in Ready only, up to MEM_CAP cells (42_controller.md R90). -/
def loadAppend (v : Cell) (s : State) : State :=
  match s.ctl with
  | .ready =>
    if s.size = s.params.memCap then respond .loadTooLarge s
    else respond .ok { s with mem := Memory.put s.mem s.size v, size := s.size + 1 }
  | .running => respond .busy s
  | .halted => respond .notLoading s
  | .failed => respond .notLoading s

/-- The mode of a PEEK or POKE: the host's, or HOST_MODE_DEFAULT when it gives none (00_scope.md R6). -/
def hostMode (mode : Option AddressMode) (s : State) : AddressMode := mode.getD s.params.hostModeDefault

/-- An OutOfRange raised inside PEEK or POKE is that command's response (60_exceptions.md R104). -/
def respondOutOfRange (bad : BadAccess) (s : State) : State :=
  respond (.outOfRange bad.addr) s

/-- PEEK(a, mode) (42_controller.md R91). -/
def peek (a : Cell) (mode : Option AddressMode) (s : State) : State :=
  match resolveRead a (hostMode mode s) s with
  | .ok v => respond (.okValue v) s
  | .error bad => respondOutOfRange bad s

/-- POKE(a, v, mode) (42_controller.md R92). -/
def poke (a v : Cell) (mode : Option AddressMode) (s : State) : State :=
  match (resolveWrite a (hostMode mode s) s).bind fun dst => memWrite dst v s with
  | .ok t => respond .ok t
  | .error bad => respondOutOfRange bad s

/-- RUN(t): accepted in Ready only (42_controller.md R73); EmptyProgram on an empty memory (R74), else the run starts,
and its response comes when it ends (R75, R81). -/
def startRun (t : Bool) (s : State) : State :=
  match s.ctl with
  | .ready =>
    if s.size = 0 then raise .emptyProgram { s with traceEn := t, ip := 0 }
    else { s with traceEn := t, fail := FailRecord.clear, ip := 0, ctl := .running }
  | .running => respond .busy s
  | .halted => respond .runRejected s
  | .failed => respond .runRejected s

/-- The fields STATUS returns beside CTL_STATE outside a run (42_controller.md R93). -/
def statusRest (s : State) : StatusRest :=
  { fail := s.fail, ip := s.ip, size := s.size, traceEn := s.traceEn }

/-- STATUS: during a run every field but CTL_STATE is a free value, another one in every step of a run
(42_controller.md R93, log 7). -/
def status (s : State) : State :=
  match s.ctl with
  | .running => respond (.okStatus .running (Config.freeStatus s.freeCount)) s
  | .ready => respond (.okStatus .ready (statusRest s)) s
  | .halted => respond (.okStatus .halted (statusRest s)) s
  | .failed => respond (.okStatus .failed (statusRest s)) s

/-- A command taken outside a run. -/
def serveIdle (c : Command) (s : State) : State :=
  match c with
  | .loadClear => respond .ok (loadClear s)
  | .loadAppend v => loadAppend v s
  | .peek a mode => peek a mode s
  | .poke a v mode => poke a v mode s
  | .run t => startRun t s
  | .status => status s

/-- A command taken during a run: Busy and no effect, but for STATUS (42_controller.md R94). -/
def serveRunning (c : Command) (s : State) : State :=
  match c with
  | .status => status s
  | .loadClear => respond .busy s
  | .loadAppend _ => respond .busy s
  | .peek _ _ => respond .busy s
  | .poke _ _ _ => respond .busy s
  | .run _ => respond .busy s

/-- One host command (42_controller.md R88). -/
def serve (c : Command) (s : State) : State :=
  match s.ctl with
  | .running => serveRunning c s
  | .ready => serveIdle (c.narrow s.params.width) s
  | .halted => serveIdle (c.narrow s.params.width) s
  | .failed => serveIdle (c.narrow s.params.width) s

/-! ## The port (42_controller.md R95) -/

/-- `cmd_mode`: 0 Position, 1 Immediate, 2 Display; 3 is treated as Position. -/
def portMode (m : BitVec 2) : AddressMode :=
  if m = 1#2 then .immediate else if m = 2#2 then .display else .position

/-- `cmd_op` with its arguments; 6 and 7 name no command. -/
def portCommand (p : CommandPort) : Option Command :=
  if p.op = 0#3 then some .loadClear
  else if p.op = 1#3 then some (.loadAppend p.data)
  else if p.op = 2#3 then some (.peek p.addr (some (portMode p.mode)))
  else if p.op = 3#3 then some (.poke p.addr p.data (some (portMode p.mode)))
  else if p.op = 4#3 then some (.run p.trace)
  else if p.op = 5#3 then some .status
  else none

/-- `cmd_op` 6 and 7: Busy when Running and RunRejected otherwise, with no effect. -/
def serveUnassigned (s : State) : State :=
  match s.ctl with
  | .running => respond .busy s
  | .ready => respond .runRejected s
  | .halted => respond .runRejected s
  | .failed => respond .runRejected s

/-- A command as the port's signals give it. -/
def servePort (p : CommandPort) (s : State) : State :=
  match portCommand p with
  | some c => serve c s
  | none => serveUnassigned s

/-- `cmd_valid` is high: the command is taken when `cmd_ready` is, and `cmd_ready` is then low until its response is
taken; else nothing happens (log 4). -/
def offerPort (p : CommandPort) (s : State) : State :=
  if s.cmdOutstanding then s else { servePort p s with cmdOutstanding := true }

/-- `rsp_ready` is high: the oldest response is taken, if there is one. With the last one `cmd_ready` is high again, but
for a RUN that still goes on, whose response is yet to come (log 6). -/
def takeResponse (s : State) : State :=
  { s with
    responses := s.responses.tail
    cmdOutstanding := s.cmdOutstanding && (decide (s.ctl = .running) || !s.responses.tail.isEmpty) }

/-- `tr_ready` is high: the oldest trace record is taken, if there is one. -/
def takeTrace (s : State) : State := { s with trace := s.trace.tail }

/-- The code of a controller state (10_state.md R16), `st_state`. -/
def CtlState.code : CtlState → BitVec 2
  | .ready => 0
  | .running => 1
  | .halted => 2
  | .failed => 3

/-- The code of a failure kind (10_state.md R18, 60_exceptions.md R97), `st_fail_kind`. -/
def FailKind.code : FailKind → BitVec 3
  | .none => 0
  | .emptyProgram => 1
  | .unknownOpcode => 2
  | .outOfRange => 3
  | .missingHalt => 4
  | .overflow => 5

/-- The code of an access (10_state.md R18), `st_fail_access`. -/
def Access.code : Access → BitVec 2
  | .none => 0
  | .read => 1
  | .write => 2

/-- The response code (42_controller.md R88), `rsp_code`. -/
def Response.code : Response → BitVec 3
  | .ok => 0
  | .okValue _ => 0
  | .okStatus _ _ => 0
  | .busy => 1
  | .outOfRange _ => 2
  | .runRejected => 3
  | .loadTooLarge => 4
  | .notLoading => 5
  | .runFailed _ => 6

/-- `rsp_data`: PEEK's value or OutOfRange's address; the other responses carry none. -/
def Response.data : Response → Option Cell
  | .okValue v => some v
  | .outOfRange a => some a
  | .ok => none
  | .okStatus _ _ => none
  | .busy => none
  | .runRejected => none
  | .loadTooLarge => none
  | .notLoading => none
  | .runFailed _ => none

/-- The name a trace record reports (30_encoding.md R63). -/
def TraceName.text : TraceName → String
  | .add => "Add"
  | .multiply => "Multiply"
  | .halt => "Halt"

/-- The output signals of the port. -/
structure PortOutputs where
  cmdReady     : Bool
  rspValid     : Bool
  rspCode      : Option (BitVec 3)
  rspData      : Option Cell
  stState      : BitVec 2
  stFailKind   : BitVec 3
  stFailAccess : BitVec 2
  stFailIp     : Nat
  stIp         : Nat
  stSize       : Nat
  stFailOpcode : Cell
  stFailAddr   : Cell
  stTraceEn    : Bool
  trValid      : Bool
  trRecord     : Option TraceRecord
  deriving DecidableEq, Repr

/-- The step counted, when it is one made in a run: its free values are new ones (log 7). -/
def State.countStep (s : State) : State :=
  { s with freeCount := if s.ctl = .running then s.freeCount + 1 else s.freeCount }

/-- The fields a STATUS taken in this state would return (42_controller.md R93). -/
def shownStatus (s : State) : StatusRest :=
  match s.ctl with
  | .running => Config.freeStatus s.countStep.freeCount
  | .ready => statusRest s
  | .halted => statusRest s
  | .failed => statusRest s

/-- The output signals (42_controller.md R95): `cmd_ready` is low from the moment a command is taken until its response
is taken; the `st_*` outputs show what STATUS would return. -/
def portOutputs (s : State) : PortOutputs :=
  { cmdReady := !s.cmdOutstanding
    rspValid := !s.responses.isEmpty
    rspCode := s.responses.head?.map Response.code
    rspData := s.responses.head?.bind Response.data
    stState := s.ctl.code
    stFailKind := (shownStatus s).fail.kind.code
    stFailAccess := (shownStatus s).fail.access.code
    stFailIp := (shownStatus s).fail.ip
    stIp := (shownStatus s).ip
    stSize := (shownStatus s).size
    stFailOpcode := (shownStatus s).fail.opcode
    stFailAddr := (shownStatus s).fail.addr
    stTraceEn := (shownStatus s).traceEn
    trValid := !s.trace.isEmpty
    trRecord := s.trace.head? }

/-! ## Reset and the load of an image -/

/-- `rst`: every piece of the spec's state at its reset value, whatever it was (70_reset_and_hazards.md R115, R116). The
parameters are the implementation's and stay; so do the host's plans and the model's counter (log 15). -/
def assertReset (s : State) : State :=
  { State.resetWith s.params with inputs := s.inputs, freeCount := s.freeCount }

/-- The commands that load an image: LOAD_CLEAR, then LOAD_APPEND for each cell in address order (42_controller.md R90,
70_reset_and_hazards.md R118). -/
def loadImage (image : List Cell) : List Input :=
  .command .loadClear :: image.map fun v => .command (.loadAppend v)

end Sys2Proof.Machine
end

