-- ==== Sys2Proof/Machine/Cycle.lean ====
section
/-!
DEFINITION. One cycle of a run, and what one input of the host does (42_controller.md R76, R80, R88).
-/

namespace Sys2Proof.Machine

/-- `cycle()`: fetch, decode, execute (42_controller.md R76). An unknown opcode fails the run (60_exceptions.md R99). The
fetch never faults in a run (R77); in a state no run reaches, where ip is outside memory, MemRead's own rule raises
OutOfRange (20_memory.md R31, log 12). -/
def cycle (s : State) : Host.Outcome State Fault Refusal :=
  match decode (fetchCells s) with
  | .ok i => exec i s
  | .error (.unknownOpcode op) => .next (raise (.unknownOpcode op) s)
  | .error .noOpcodeCell => .next (raise (.outOfRange { addr := s.ip, access := .read }) s)

/-- What the core does by itself: a cycle while Running; Ready, Halted and Failed are idle and keep every piece of state
(42_controller.md R81, 60_exceptions.md R114). -/
def runCore (s : State) : Host.Outcome State Fault Refusal :=
  match s.ctl with
  | .running => cycle s
  | .ready => .next s
  | .halted => .next s
  | .failed => .next s

/-- What one input does (log 4, log 6). -/
def serveInput (i : Input) (s : State) : Host.Outcome State Fault Refusal :=
  match i with
  | .rst => .next (assertReset s)
  | .command c => .next (serve c s)
  | .port p => .next (offerPort p s)
  | .idle => runCore s
  | .takeResponse => .next (takeResponse s)
  | .takeTrace => .next (takeTrace s)

end Sys2Proof.Machine
end

