-- ==== Sys2Proof/Machine/Step.lean ====
section
/-!
DEFINITION. The step of the machine, and the host's way to place one instruction.
-/

namespace Sys2Proof.Machine

/-- One step: the host's next input, or, when it has none, what the core does by itself (log 4); a step of a run
is counted (log 7). -/
def step (s : State) : Host.Outcome State Fault Refusal :=
  match s.inputs with
  | [] => runCore s.countStep
  | i :: rest => serveInput i { s.countStep with inputs := rest }

/-- The state in which the next step fetches and runs an opcode-table word: its four cells from ip on, a memory long
enough to hold them, a run going on and no input of the host before it. It stands for the host's load and RUN
(70_reset_and_hazards.md R118; log 14). -/
def State.withFetchWord (s : State) (nbits w : Nat) : State :=
  { s with
    ctl := .running
    inputs := []
    size := max s.size (s.ip + 4)
    mem := Memory.putAll s.mem s.ip ((tableCells nbits w).map (wrapW s.params.width)) }

end Sys2Proof.Machine
end

