-- ==== Sys2Proof/Safety.lean ====
section
/-!
DEFINITION. The terms the statements use: many steps, the invariant of every reachable state, the part of the state a run
computes with, which event a step is, and rule R64 read from memory.
-/

namespace Sys2Proof.Machine

/-- `k` steps. -/
def runSteps : Nat → State → Host.Outcome State Fault Refusal
  | 0, s => .next s
  | k + 1, s =>
    match step s with
    | .next t => runSteps k t
    | .fault r => .fault r
    | .refused r => .refused r

/-- The run is over (42_controller.md R81, R82). -/
def Ended (s : State) : Prop := s.ctl = .halted ∨ s.ctl = .failed

/-- A field of FAIL that its kind does not use holds 0, and OutOfRange names an access (10_state.md R18). -/
structure FailRecord.Shaped (f : FailRecord) : Prop where
  opcode_unused : f.kind ≠ .unknownOpcode → f.opcode = 0
  addr_unused   : f.kind ≠ .outOfRange → f.addr = 0 ∧ f.access = .none
  access_used   : f.kind = .outOfRange → f.access ≠ .none

/-- What holds of every state the machine reaches from reset, whatever the host does. -/
structure Inv (s : State) : Prop where
  /-- the memory has its canonical form (log 1) -/
  mem_wf        : Memory.wf s.mem = true
  /-- no cell exists at or beyond SIZE (10_state.md R20) -/
  mem_below     : Memory.below s.mem s.size = true
  /-- every cell holds a W-bit value (00_scope.md R7, 10_state.md R20) -/
  mem_fits      : Memory.fits s.params.width s.mem = true
  /-- 1 <= MEM_CAP <= 2^(W-1) - 4 (00_scope.md R6) -/
  cap_bounds    : 1 ≤ s.params.memCap ∧ s.params.memCap + 4 ≤ 2 ^ (s.params.width - 1)
  /-- SIZE <= MEM_CAP (10_state.md R19) -/
  size_le_cap   : s.size ≤ s.params.memCap
  /-- ip is at most SIZE + 3, so at most MEM_CAP + 3 (10_state.md R11, R12) -/
  ip_le         : s.ip ≤ s.size + 3
  /-- in a run, ip is the address of a cell and a multiple of 4 (10_state.md R12, 42_controller.md R77, R85) -/
  running_fetch : s.ctl = .running → s.ip < s.size ∧ s.ip % 4 = 0
  /-- Ready means loaded, ip = 0, nothing traced (10_state.md R16, 42_controller.md R89) -/
  ready_fresh   : s.ctl = .ready → s.ip = 0 ∧ s.traceEn = false
  /-- FAIL is clear but in Failed (10_state.md R18, 60_exceptions.md R97) -/
  fail_clear    : s.ctl ≠ .failed → s.fail = FailRecord.clear
  /-- in Failed, FAIL names a kind and the ip, which stays (60_exceptions.md R105) -/
  failed_named  : s.ctl = .failed → s.fail.kind ≠ .none ∧ s.fail.ip = s.ip
  /-- the fields of FAIL fit its kind -/
  fail_shaped   : FailRecord.Shaped s.fail
  /-- FAIL.opcode and FAIL.addr are W-bit values (10_state.md R18) -/
  fail_fits     : fitsW s.params.width s.fail.opcode = true ∧ fitsW s.params.width s.fail.addr = true
  /-- a command outstanding at the port has a response waiting, or is the RUN of this run (42_controller.md R95) -/
  outstanding   : s.cmdOutstanding = true → s.ctl = .running ∨ s.responses ≠ []

/-- What a run computes with and ends in (42_controller.md R84). -/
structure RunView where
  ip     : Nat
  ctl    : CtlState
  fail   : FailRecord
  size   : Nat
  mem    : Memory
  params : Params
  deriving DecidableEq, Repr

/-- That part of a state. -/
def State.view (s : State) : RunView :=
  { ip := s.ip, ctl := s.ctl, fail := s.fail, size := s.size, mem := s.mem, params := s.params }

/-- The step is one cycle of the run (42_controller.md R76): Running, and the host does nothing. -/
def cycleDue (s : State) : Prop := s.ctl = .running ∧ (s.inputs = [] ∨ s.inputs.head? = some .idle)

/-- The command the step takes, if its input is one (42_controller.md R88), at the port when `cmd_ready` is high (R95). -/
def commandTaken (s : State) : Option Command :=
  match s.inputs with
  | .command c :: _ => some c
  | .port p :: _ => if s.cmdOutstanding then none else portCommand p
  | _ => none

/-- What the host's present input acts on: the state without that input, its step counted (log 7). -/
def State.afterInput (s : State) : State := { s.countStep with inputs := s.inputs.tail }

/-- Rule R64 of 40_arithmetic.md followed by R78 and R79 of 42_controller.md, read from memory through the address
resolver, access by access: `out` is what the sequence ends in. -/
structure FollowsR64 (name : TraceName) (f : Int → Int → Int) (ms : OperandModes) (s out : State) : Prop where
  source1 : ∀ bad, resolveRead (s.ip + 1) ms.m1 s = .error bad → out = raise (.outOfRange bad) s
  source2 : ∀ v1 bad, resolveRead (s.ip + 1) ms.m1 s = .ok v1 → resolveRead (s.ip + 2) ms.m2 s = .error bad →
    out = raise (.outOfRange bad) s
  target  : ∀ v1 v2 bad, resolveRead (s.ip + 1) ms.m1 s = .ok v1 → resolveRead (s.ip + 2) ms.m2 s = .ok v2 →
    resolveWrite (s.ip + 3) ms.m3 s = .error bad → out = raise (.outOfRange bad) s
  result  : ∀ v1 v2 dst, resolveRead (s.ip + 1) ms.m1 s = .ok v1 → resolveRead (s.ip + 2) ms.m2 s = .ok v2 →
    resolveWrite (s.ip + 3) ms.m3 s = .ok dst →
    ∃ traced, traced = emitTrace
        { name := name, ip := s.ip, operands :=
          [ { mode := ms.m1, raw := cellAt (s.ip + 1) s, resolved := .value v1 },
            { mode := ms.m2, raw := cellAt (s.ip + 2) s, resolved := .value v2 },
            { mode := ms.m3, raw := cellAt (s.ip + 3) s, resolved := .address dst } ] } s ∧
      (fitsW s.params.width (f v1 v2) = false → s.params.overflowMode = .fault → out = raise .overflow traced) ∧
      (fitsW s.params.width (f v1 v2) = true ∨ s.params.overflowMode = .wrap →
        (∀ bad, memWrite dst (wrapW s.params.width (f v1 v2)) traced = .error bad →
          out = raise (.outOfRange bad) traced) ∧
        (∀ written, memWrite dst (wrapW s.params.width (f v1 v2)) traced = .ok written → out = advance written))

end Sys2Proof.Machine
end

