-- ==== Sys2Proof/Certificates/Slice0/Obligations.lean ====
section
/-!
DEFINITION. The statements for the provers. Each docstring names the rules of spec/ it formalises.
-/

open Sys2Proof
open Sys2Proof.Machine

/-! ## Memory and the address resolver -/

/-- 20_memory.md R31: MemRead returns the value of the cell inside memory and raises OutOfRange(a, Read) outside. -/
def Obligations.MemReadReadsTheCellOrFails : Prop :=
  ∀ (a : Int) (s : State),
    (0 ≤ a → a < s.size → memRead a s = .ok (Memory.get s.mem a.toNat)) ∧
    (a < 0 ∨ (s.size : Int) ≤ a → memRead a s = .error { addr := a, access := .read })

/-- 20_memory.md R32: a write that succeeds changes cell a only, and to v; one that raises changes no cell. -/
def Obligations.MemWriteReplacesExactlyOneCell : Prop :=
  ∀ (a : Int) (v : Cell) (s : State),
    (0 ≤ a → a < s.size →
      ∃ t, memWrite a v s = .ok t ∧ cellAt a t = some v ∧ (∀ b, b ≠ a → cellAt b t = cellAt b s) ∧
        t = { s with mem := t.mem }) ∧
    (a < 0 ∨ (s.size : Int) ≤ a → memWrite a v s = .error { addr := a, access := .write })

/-- 20_memory.md R39 to R43: what each mode makes of the operand cell at address c; Display is Position. -/
def Obligations.ResolverReadsAndTargets : Prop :=
  ∀ (c : Int) (s : State),
    resolveRead c .immediate s = memRead c s ∧
    (∀ a, memRead c s = .ok a → resolveRead c .position s = memRead a s) ∧
    (∀ bad, memRead c s = .error bad → resolveRead c .position s = .error bad) ∧
    resolveRead c .display s = resolveRead c .position s ∧
    resolveWrite c .immediate s = .ok c ∧
    (∀ a, memRead c s = .ok a → resolveWrite c .position s = .ok a) ∧
    (∀ bad, memRead c s = .error bad → resolveWrite c .position s = .error bad) ∧
    resolveWrite c .display s = resolveWrite c .position s

/-- The round trip of 20_memory.md section 6 (R52, an inference the spec marks as derived), for every mode. -/
def Obligations.ResolvedWriteIsReadBack : Prop :=
  ∀ (c : Int) (m : AddressMode) (v : Cell) (s t : State) (a : Int),
    resolveWrite c m s = .ok a → memWrite a v s = .ok t → memRead a t = .ok v

/-! ## Arithmetic -/

/-- The primitives `wrap_W` and `fits_W` of 00_scope.md section 5, for every width W: the only W-bit value congruent to n,
and the range. -/
def Obligations.WrapIsTheResidueAndFitsIsTheRange : Prop :=
  ∀ (w : Nat) (n : Int), 1 ≤ w →
    (2 ^ w ∣ wrapW w n - n) ∧ -2 ^ (w - 1) ≤ wrapW w n ∧ wrapW w n < 2 ^ (w - 1) ∧
    (∀ v : Int, 2 ^ w ∣ v - n → -2 ^ (w - 1) ≤ v → v < 2 ^ (w - 1) → v = wrapW w n) ∧
    (fitsW w n = true ↔ -2 ^ (w - 1) ≤ n ∧ n < 2 ^ (w - 1)) ∧ (fitsW w n = true ↔ wrapW w n = n)

/-! ## Encoding -/

/-- Words written out from the opcode map (30_encoding.md section 5) and the formats of section 2. -/
def Obligations.TableWordsDecode : Prop :=
  decode [1, 9, 10, 3] = .ok (.add (some 9) (some 10) (some 3)) ∧
  decode [2, 3, 11, -1] = .ok (.mul (some 3) (some 11) (some (-1))) ∧
  decode [99] = .ok .halt ∧
  decode [1, 0, 0] = .ok (.add (some 0) (some 0) none) ∧
  decode [1001, 0, 0, 0] = .error (.unknownOpcode 1001)

/-- Decoding the encoding of a well-formed instruction gives it back, every operand at every value and every cut by the
end of memory; where all its cells exist, whatever cells follow (30_encoding.md sections 2 and 3). -/
def Obligations.DecodeUndoesEncode : Prop :=
  ∀ i : Instr, WellFormed i →
    decode (encode i) = .ok i ∧ (Whole i → ∀ rest, decode (encode i ++ rest) = .ok i)

/-- What decodes to an instruction begins with that instruction's cells, as many as its length and the end of memory
allow, and the instruction is well-formed (30_encoding.md sections 2 and 3). -/
def Obligations.EncodeUndoesDecode : Prop :=
  ∀ (cells : List Cell) (i : Instr), decode cells = .ok i → WellFormed i ∧ encode i = cells.take i.length

/-- Decoding compares the whole opcode cell with 1, 2 and 99; it gives exactly those opcodes a meaning and rejects every
other by its value (30_encoding.md sections 1 and 4). -/
def Obligations.OnlyThreeOpcodesDecode : Prop :=
  ∀ (op : Cell) (rest : List Cell),
    (∀ i, decode (op :: rest) = .ok i → i.opcode = op) ∧
    ((∃ i, decode (op :: rest) = .ok i) ↔ op = 1 ∨ op = 2 ∨ op = 99) ∧
    (op ≠ 1 → op ≠ 2 → op ≠ 99 → decode (op :: rest) = .error (.unknownOpcode op))

/-- The items of the assembly syntax are the cells of the instructions they name (30_encoding.md section 6). -/
def Obligations.AssemblyCellsAreTheEncodings : Prop :=
  ∀ (p1 p2 p3 : Cell) (vs : List Cell) (items more : List AsmItem),
    (AsmItem.add p1 p2 p3).cells = encode (.add (some p1) (some p2) (some p3)) ∧
    (AsmItem.mul p1 p2 p3).cells = encode (.mul (some p1) (some p2) (some p3)) ∧
    AsmItem.halt.cells = encode .halt ∧ (AsmItem.data vs).cells = vs ∧
    assemble (items ++ more) = assemble items ++ assemble more

/-! ## The cycle -/

/-- The fetch reads the cells of MEM from ip on, as they are when the cycle runs (20_memory.md section 6). -/
def Obligations.FetchReadsMemoryFromIp : Prop :=
  ∀ (s : State) (k : Nat), k < 4 → (fetchCells s)[k]? = cellAt (s.ip + k) s

/-- In a run, when the cells at ip decode to i, the step is exec of i at that state, and what it adds around exec is the
model's own: the step is counted (log 7), and an `idle` input of the host is consumed first (log 4)
(42_controller.md section 2). -/
def Obligations.StepRunsTheDecodedInstruction : Prop :=
  ∀ (s : State) (i : Instr), s.ctl = .running → decode (fetchCells s) = .ok i →
    (s.inputs = [] → step s = exec i { s with freeCount := s.freeCount + 1 }) ∧
    (∀ rest, s.inputs = .idle :: rest → step s = exec i { s with inputs := rest, freeCount := s.freeCount + 1 })

/-- 40_arithmetic.md R64, R65: a cycle that fetches opcode 1 performs R64's sequence with f = + and OPERAND_MODES[1],
access by access, reads MEM[MEM[ip+1]] and MEM[MEM[ip+2]] before it writes MEM[MEM[ip+3]] at the default modes, and
changes that cell alone. The counter of the steps made in runs is the model's (log 7). -/
def Obligations.AddFollowsItsRule : Prop :=
  ∀ s : State, s.ctl = .running → s.inputs = [] → cellAt s.ip s = some 1 →
    ∃ out, step s = .next out ∧
      FollowsR64 .add (fun a b => a + b) s.params.addModes { s with freeCount := s.freeCount + 1 } out ∧
      ∀ a1 a2 d x y : Cell, s.params.addModes = OperandModes.allPosition →
        cellAt (s.ip + 1) s = some a1 → cellAt (s.ip + 2) s = some a2 → cellAt (s.ip + 3) s = some d →
        cellAt a1 s = some x → cellAt a2 s = some y → validAddr d s = true →
        fitsW s.params.width (x + y) = true ∨ s.params.overflowMode = .wrap →
        cellAt d out = some (wrapW s.params.width (x + y)) ∧
          ∀ a, a ≠ d → cellAt a out = cellAt a s

/-- 40_arithmetic.md R64, R66: the same for opcode 2 with f = * and OPERAND_MODES[2]. -/
def Obligations.MulFollowsItsRule : Prop :=
  ∀ s : State, s.ctl = .running → s.inputs = [] → cellAt s.ip s = some 2 →
    ∃ out, step s = .next out ∧
      FollowsR64 .multiply (fun a b => a * b) s.params.mulModes { s with freeCount := s.freeCount + 1 } out ∧
      ∀ a1 a2 d x y : Cell, s.params.mulModes = OperandModes.allPosition →
        cellAt (s.ip + 1) s = some a1 → cellAt (s.ip + 2) s = some a2 → cellAt (s.ip + 3) s = some d →
        cellAt a1 s = some x → cellAt a2 s = some y → validAddr d s = true →
        fitsW s.params.width (x * y) = true ∨ s.params.overflowMode = .wrap →
        cellAt d out = some (wrapW s.params.width (x * y)) ∧
          ∀ a, a ≠ d → cellAt a out = cellAt a s

/-- ADD completes, in every mode: its accesses are in range, the result fits or wraps, and memory goes on after it. The
destination holds the sum, every other cell and every other piece of state is as before, ip is 4 further
(40_arithmetic.md section 2). -/
def Obligations.AddCompletes : Prop :=
  ∀ (s : State) (p1 p2 p3 : Option Cell) (o : Op3Operands),
    resolveOperands s.params.addModes p1 p2 p3 s = .ok o → validAddr o.dst s = true →
    fitsW s.params.width (o.v1 + o.v2) = true ∨ s.params.overflowMode = .wrap → s.ip + 4 < s.size →
    ∃ t, exec (.add p1 p2 p3) s = .next t ∧
      cellAt o.dst t = some (wrapW s.params.width (o.v1 + o.v2)) ∧
      (∀ a, a ≠ o.dst → cellAt a t = cellAt a s) ∧
      t.trace = (if s.traceEn then s.trace ++ [op3Record .add s.params.addModes p1 p2 p3 o s.ip] else s.trace) ∧
      t = { s with ip := s.ip + 4, mem := t.mem, trace := t.trace }

/-- MUL completes, likewise, with the product (40_arithmetic.md section 2). -/
def Obligations.MulCompletes : Prop :=
  ∀ (s : State) (p1 p2 p3 : Option Cell) (o : Op3Operands),
    resolveOperands s.params.mulModes p1 p2 p3 s = .ok o → validAddr o.dst s = true →
    fitsW s.params.width (o.v1 * o.v2) = true ∨ s.params.overflowMode = .wrap → s.ip + 4 < s.size →
    ∃ t, exec (.mul p1 p2 p3) s = .next t ∧
      cellAt o.dst t = some (wrapW s.params.width (o.v1 * o.v2)) ∧
      (∀ a, a ≠ o.dst → cellAt a t = cellAt a s) ∧
      t.trace =
        (if s.traceEn then s.trace ++ [op3Record .multiply s.params.mulModes p1 p2 p3 o s.ip] else s.trace) ∧
      t = { s with ip := s.ip + 4, mem := t.mem, trace := t.trace }

/-- The frame of ADD and MUL, however they end: SIZE, TRACE_EN, the parameters, the host's plans, `cmd_ready` and the
model's counter are unchanged; every cell but the resolved destination is unchanged, and every cell when the operands do
not resolve; while CTL_STATE stays, so do FAIL and the responses (40_arithmetic.md sections 1 and 2, 10_state.md
section 5). -/
def Obligations.ArithmeticFrame : Prop :=
  ∀ (s t : State) (p1 p2 p3 : Option Cell) (i : Instr) (ms : OperandModes),
    (i = .add p1 p2 p3 ∧ ms = s.params.addModes) ∨ (i = .mul p1 p2 p3 ∧ ms = s.params.mulModes) →
    exec i s = .next t →
    t.size = s.size ∧ t.traceEn = s.traceEn ∧ t.params = s.params ∧ t.inputs = s.inputs ∧
    t.freeCount = s.freeCount ∧ t.cmdOutstanding = s.cmdOutstanding ∧
    (∀ o, resolveOperands ms p1 p2 p3 s = .ok o → ∀ a, a ≠ o.dst → cellAt a t = cellAt a s) ∧
    (∀ bad, resolveOperands ms p1 p2 p3 s = .error bad → ∀ a, cellAt a t = cellAt a s) ∧
    (t.ctl ≠ .failed → t.ctl = s.ctl ∧ t.fail = s.fail ∧ t.responses = s.responses)

/-- 41_halt.md R69, R70: HALT traces its name and ip, sets CTL_STATE to Halted (the RUN gets OK, 42_controller.md section
2) and changes nothing else, so ip keeps the address of the Halt opcode; a cycle that fetches 99 is this, whatever cells
follow; and no later cycle runs. That the response is sent in this step, to a queue, is the model's (log 5, log 6). -/
def Obligations.HaltEndsTheRun : Prop :=
  ∀ s : State,
    exec .halt s = .next
      { s with
        ctl := .halted
        trace := if s.traceEn then s.trace ++ [{ name := .halt, ip := s.ip, operands := [] }] else s.trace
        responses := s.responses ++ [.ok] } ∧
    (s.ctl = .running → s.inputs = [] → cellAt s.ip s = some 99 →
      step s = exec .halt { s with freeCount := s.freeCount + 1 }) ∧
    (∀ t k, s.inputs = [] → exec .halt s = .next t → runSteps k t = .next t)

/-- An operand cell that does not exist fails the run with OutOfRange at that cell's address when the sequence comes to
read it, and a destination cell under Immediate is not read at all (20_memory.md sections 3 and 4, 40_arithmetic.md
section 1), in ADD and in MUL. -/
def Obligations.AbsentOperandCellRaisesOutOfRange : Prop :=
  ∀ (s : State) (p1 p2 p3 : Option Cell) (i : Instr) (ms : OperandModes),
    (i = .add p1 p2 p3 ∧ ms = s.params.addModes) ∨ (i = .mul p1 p2 p3 ∧ ms = s.params.mulModes) →
    (p1 = none → exec i s = .next (raise (.outOfRange { addr := s.ip + 1, access := .read }) s)) ∧
    (∀ v1, readThrough (operandCell (s.ip + 1) p1) ms.m1 s = .ok v1 → p2 = none →
      exec i s = .next (raise (.outOfRange { addr := s.ip + 2, access := .read }) s)) ∧
    (∀ v1 v2, readThrough (operandCell (s.ip + 1) p1) ms.m1 s = .ok v1 →
      readThrough (operandCell (s.ip + 2) p2) ms.m2 s = .ok v2 → p3 = none →
      (ms.m3 ≠ .immediate →
        exec i s = .next (raise (.outOfRange { addr := s.ip + 3, access := .read }) s)) ∧
      (ms.m3 = .immediate →
        resolveOperands ms p1 p2 p3 s = .ok { v1 := v1, v2 := v2, dst := s.ip + 3 }))

/-- 42_controller.md R79, 60_exceptions.md R101: an ADD or MUL that wrote its result and whose advanced ip is at or beyond
SIZE fails the run with MissingHalt at the advanced ip; its write stays. That RunFailed with FAIL, the response of
42_controller.md section 2 and 60_exceptions.md section 2, is sent in this step is the model's (log 5). -/
def Obligations.MissingHaltAfterTheWrite : Prop :=
  ∀ (s : State) (p1 p2 p3 : Option Cell) (o : Op3Operands) (i : Instr) (ms : OperandModes) (n : Int),
    (i = .add p1 p2 p3 ∧ ms = s.params.addModes ∧ n = o.v1 + o.v2) ∨
      (i = .mul p1 p2 p3 ∧ ms = s.params.mulModes ∧ n = o.v1 * o.v2) →
    resolveOperands ms p1 p2 p3 s = .ok o → validAddr o.dst s = true →
    fitsW s.params.width n = true ∨ s.params.overflowMode = .wrap →
    (s.size ≤ s.ip + 4 →
      ∃ t, exec i s = .next t ∧ t.ctl = .failed ∧ t.ip = s.ip + 4 ∧
        t.fail = { kind := .missingHalt, ip := s.ip + 4, opcode := 0, addr := 0, access := .none } ∧
        t.responses = s.responses ++ [.runFailed t.fail] ∧
        cellAt o.dst t = some (wrapW s.params.width n) ∧ ∀ a, a ≠ o.dst → cellAt a t = cellAt a s) ∧
    (s.ip + 4 < s.size → ∃ t, exec i s = .next t ∧ t.ctl = s.ctl ∧ t.ip = s.ip + 4 ∧ t.fail = s.fail)

/-- 60_exceptions.md R100, for the instruction at ip: the first access of an ADD or MUL whose address is negative or at
least SIZE fails the run, FAIL.addr is that address, FAIL.access is Read or Write, FAIL.ip is the instruction's ip, and no
cell changes. -/
def Obligations.OutOfRangeIsReported : Prop :=
  ∀ (s : State) (p1 p2 p3 : Option Cell) (i : Instr) (ms : OperandModes) (f : Int → Int → Int),
    decode (fetchCells s) = .ok i →
    (i = .add p1 p2 p3 ∧ ms = s.params.addModes ∧ f = fun a b => a + b) ∨
      (i = .mul p1 p2 p3 ∧ ms = s.params.mulModes ∧ f = fun a b => a * b) →
    (∀ bad, resolveOperands ms p1 p2 p3 s = .error bad →
      (bad.addr < 0 ∨ (s.size : Int) ≤ bad.addr) ∧
      ∃ t, exec i s = .next t ∧ t.ctl = .failed ∧
        t.fail = { kind := .outOfRange, ip := s.ip, opcode := 0, addr := bad.addr, access := .read } ∧
        t.ip = s.ip ∧ t.mem = s.mem) ∧
    (∀ o, resolveOperands ms p1 p2 p3 s = .ok o → o.dst < 0 ∨ (s.size : Int) ≤ o.dst →
      fitsW s.params.width (f o.v1 o.v2) = true ∨ s.params.overflowMode = .wrap →
      ∃ t, exec i s = .next t ∧ t.ctl = .failed ∧
        t.fail = { kind := .outOfRange, ip := s.ip, opcode := 0, addr := o.dst, access := .write } ∧
        t.ip = s.ip ∧ t.mem = s.mem)

/-- 60_exceptions.md R102: with OVERFLOW_MODE = Fault a result that does not fit fails the run with Overflow, after the
resolutions and before the write, whatever the destination; under Wrap, or when the result fits, Overflow is never
raised. -/
def Obligations.OverflowOnlyInFaultMode : Prop :=
  ∀ (s : State) (p1 p2 p3 : Option Cell) (o : Op3Operands) (i : Instr) (ms : OperandModes) (n : Int),
    (i = .add p1 p2 p3 ∧ ms = s.params.addModes ∧ n = o.v1 + o.v2) ∨
      (i = .mul p1 p2 p3 ∧ ms = s.params.mulModes ∧ n = o.v1 * o.v2) →
    resolveOperands ms p1 p2 p3 s = .ok o →
    (s.params.overflowMode = .fault → fitsW s.params.width n = false →
      ∃ t, exec i s = .next t ∧ t.ctl = .failed ∧ t.mem = s.mem ∧ t.ip = s.ip ∧
        t.fail = { kind := .overflow, ip := s.ip, opcode := 0, addr := 0, access := .none }) ∧
    (s.params.overflowMode = .wrap ∨ fitsW s.params.width n = true →
      ∃ t, exec i s = .next t ∧ (t.fail.kind = .overflow → t.fail = s.fail))

/-! ## The failures of a run -/

/-- 60_exceptions.md R99: an opcode value other than 1, 2 and 99 fails the run with UnknownOpcode, reporting the value and
ip; no operand cell matters (memory may end right after the opcode) and no cell is written. That RunFailed is sent in this
step and that the step is counted are the model's (log 5, log 7). -/
def Obligations.UnknownOpcodeFailsTheRun : Prop :=
  ∀ (s : State) (op : Cell), s.ctl = .running → s.inputs = [] → cellAt s.ip s = some op →
    op ≠ 1 → op ≠ 2 → op ≠ 99 →
    step s = .next
      { s with
        freeCount := s.freeCount + 1
        ctl := .failed
        fail := { kind := .unknownOpcode, ip := s.ip, opcode := op, addr := 0, access := .none }
        responses := s.responses ++
          [.runFailed { kind := .unknownOpcode, ip := s.ip, opcode := op, addr := 0, access := .none }] }

/-- 42_controller.md R74, 60_exceptions.md R98: a RUN accepted with SIZE = 0 fails with EmptyProgram at once; Running is not
entered, no cell is read, nothing is traced. That RunFailed with FAIL, the response of 42_controller.md section 2 and
60_exceptions.md section 2, is sent in this step is the model's (log 5). -/
def Obligations.EmptyProgramIsRejected : Prop :=
  ∀ (s : State) (b : Bool) (rest : List Input), s.ctl = .ready → s.size = 0 →
    s.inputs = .command (.run b) :: rest →
    step s = .next
      { s with
        inputs := rest
        traceEn := b
        ip := 0
        ctl := .failed
        fail := { kind := .emptyProgram, ip := 0, opcode := 0, addr := 0, access := .none }
        responses := s.responses ++
          [.runFailed { kind := .emptyProgram, ip := 0, opcode := 0, addr := 0, access := .none }] }

/-- 60_exceptions.md R105: what `raise` writes, for every kind, and what it leaves. That RunFailed is sent in the same step,
to a queue, is the model's (log 5, log 6). -/
def Obligations.FailureEntryWritesFailAndStops : Prop :=
  ∀ (f : Failure) (s : State),
    raise f s =
      { s with
        ctl := .failed
        fail := (raise f s).fail
        responses := s.responses ++ [.runFailed (raise f s).fail] } ∧
    (raise f s).fail.ip = s.ip ∧
    (∀ op, f = .unknownOpcode op → (raise f s).fail.kind = .unknownOpcode ∧ (raise f s).fail.opcode = op) ∧
    (∀ bad, f = .outOfRange bad → (raise f s).fail.kind = .outOfRange ∧
      (raise f s).fail.addr = bad.addr ∧ (raise f s).fail.access = bad.access) ∧
    (f = .emptyProgram → (raise f s).fail.kind = .emptyProgram) ∧
    (f = .missingHalt → (raise f s).fail.kind = .missingHalt) ∧
    (f = .overflow → (raise f s).fail.kind = .overflow) ∧
    ((raise f s).fail.kind ≠ .unknownOpcode → (raise f s).fail.opcode = 0) ∧
    ((raise f s).fail.kind ≠ .outOfRange → (raise f s).fail.addr = 0 ∧ (raise f s).fail.access = .none)

/-- Failures are precise (60_exceptions.md section 2, R106, an inference the spec marks as derived): the failing
instruction has written no cell and ip is its own, but for MissingHalt, which comes after the write and the advance. -/
def Obligations.FailuresArePrecise : Prop :=
  ∀ (i : Instr) (s t : State), s.ctl = .running → exec i s = .next t → t.ctl = .failed →
    (t.fail.kind ≠ .missingHalt → t.mem = s.mem ∧ t.ip = s.ip) ∧
    (t.fail.kind = .missingHalt → t.ip = s.ip + 4 ∧ s.size ≤ t.ip)

/-! ## The host's commands -/

/-- 42_controller.md R75: a RUN accepted with SIZE > 0 starts the run at 0, with FAIL clear and the trace flag latched;
MEM is not changed, and its response waits for the end of the run. -/
def Obligations.RunStartsAtZero : Prop :=
  ∀ (s : State) (b : Bool) (rest : List Input), s.ctl = .ready → 0 < s.size →
    s.inputs = .command (.run b) :: rest →
    step s = .next
      { s with
        inputs := rest
        traceEn := b
        fail := { kind := .none, ip := 0, opcode := 0, addr := 0, access := .none }
        ip := 0
        ctl := .running }

/-- 42_controller.md R73: RUN outside Ready gets RunRejected, or Busy during a run, and changes nothing; that the step of a
run is counted is the model's (log 7). -/
def Obligations.RunIsRejectedOutsideReady : Prop :=
  ∀ (s : State) (b : Bool) (rest : List Input), s.inputs = .command (.run b) :: rest →
    (s.ctl = .halted ∨ s.ctl = .failed →
      step s = .next { s with inputs := rest, responses := s.responses ++ [.runRejected] }) ∧
    (s.ctl = .running →
      step s = .next
        { s with inputs := rest, freeCount := s.freeCount + 1, responses := s.responses ++ [.busy] }) ∧
    (s.ctl = .ready → ∃ t, step s = .next t ∧ (t.ctl = .running ∨ t.fail.kind = .emptyProgram))

/-- 42_controller.md R89: LOAD_CLEAR outside a run. -/
def Obligations.LoadClearEmptiesTheMachine : Prop :=
  ∀ (s : State) (rest : List Input), s.ctl ≠ .running → s.inputs = .command .loadClear :: rest →
    ∃ t, step s = .next t ∧ t.size = 0 ∧ t.ip = 0 ∧ t.traceEn = false ∧ t.ctl = .ready ∧
      t.fail = { kind := .none, ip := 0, opcode := 0, addr := 0, access := .none } ∧
      (∀ a, cellAt a t = none) ∧ t.responses = s.responses ++ [.ok] ∧ t.trace = s.trace ∧
      t.params = s.params ∧ t.inputs = rest ∧ t.cmdOutstanding = s.cmdOutstanding

/-- 42_controller.md R90: LOAD_APPEND appends one cell in Ready up to MEM_CAP cells, is turned away otherwise, and a whole
load leaves MEM = image and SIZE = its length, whatever was there before. That an argument v is a W-bit value (R88) is said
by `wrap_W`, which a W-bit value equals (log 9). -/
def Obligations.LoadAppendBuildsTheImage : Prop :=
  (∀ (s : State) (v : Cell) (rest : List Input), s.inputs = .command (.loadAppend v) :: rest →
    (s.ctl = .ready → s.size ≠ s.params.memCap →
      ∃ t, step s = .next t ∧ t.size = s.size + 1 ∧ cellAt s.size t = some (wrapW s.params.width v) ∧
        (∀ a : Int, a ≠ s.size → cellAt a t = cellAt a s) ∧
        t = { s with inputs := rest, size := t.size, mem := t.mem, responses := s.responses ++ [.ok] }) ∧
    (s.ctl = .ready → s.size = s.params.memCap →
      step s = .next { s with inputs := rest, responses := s.responses ++ [.loadTooLarge] }) ∧
    (s.ctl = .halted ∨ s.ctl = .failed →
      step s = .next { s with inputs := rest, responses := s.responses ++ [.notLoading] })) ∧
  (∀ (s s' : State) (image : List Cell), s.ctl ≠ .running → s'.ctl ≠ .running → s'.params = s.params →
    image.length ≤ s.params.memCap → 1 ≤ s.params.width → (∀ v ∈ image, fitsW s.params.width v = true) →
    ∃ t t', runSteps (image.length + 1) { s with inputs := loadImage image } = .next t ∧
      runSteps (image.length + 1) { s' with inputs := loadImage image } = .next t' ∧
      t.ctl = .ready ∧ t.size = image.length ∧ (∀ i : Nat, cellAt i t = image[i]?) ∧
      t.responses = s.responses ++ List.replicate (image.length + 1) .ok ∧
      t'.mem = t.mem ∧ t'.size = t.size)

/-- 42_controller.md R91: PEEK outside a run answers the resolver's value, or OutOfRange with the failing address, and
changes nothing else; the mode is HOST_MODE_DEFAULT when the host gives none. That the argument a is a W-bit value (R88) is
said by `wrap_W`, which a W-bit value equals (log 9). -/
def Obligations.PeekReadsThroughTheResolver : Prop :=
  ∀ (s : State) (a : Cell) (m : Option AddressMode) (rest : List Input), s.ctl ≠ .running →
    s.inputs = .command (.peek a m) :: rest →
    (∀ v, resolveRead (wrapW s.params.width a) (m.getD s.params.hostModeDefault) s = .ok v →
      step s = .next { s with inputs := rest, responses := s.responses ++ [.okValue v] }) ∧
    (∀ bad, resolveRead (wrapW s.params.width a) (m.getD s.params.hostModeDefault) s = .error bad →
      step s = .next { s with inputs := rest, responses := s.responses ++ [.outOfRange bad.addr] })

/-- 42_controller.md R92: POKE outside a run, in Halted and Failed too, writes the resolved cell alone, or answers
OutOfRange with the failing address and changes no cell; SIZE, CTL_STATE and FAIL stay. That the arguments a and v are
W-bit values (R88) is said by `wrap_W`, which a W-bit value equals (log 9). -/
def Obligations.PokeWritesThroughTheResolver : Prop :=
  ∀ (s : State) (a v : Cell) (m : Option AddressMode) (rest : List Input), s.ctl ≠ .running →
    s.inputs = .command (.poke a v m) :: rest →
    (∀ dst, resolveWrite (wrapW s.params.width a) (m.getD s.params.hostModeDefault) s = .ok dst →
      (validAddr dst s = true →
        ∃ t, step s = .next t ∧ cellAt dst t = some (wrapW s.params.width v) ∧
          (∀ b, b ≠ dst → cellAt b t = cellAt b s) ∧
          t = { s with inputs := rest, mem := t.mem, responses := s.responses ++ [.ok] }) ∧
      (validAddr dst s = false →
        step s = .next { s with inputs := rest, responses := s.responses ++ [.outOfRange dst] })) ∧
    (∀ bad, resolveWrite (wrapW s.params.width a) (m.getD s.params.hostModeDefault) s = .error bad →
      step s = .next { s with inputs := rest, responses := s.responses ++ [.outOfRange bad.addr] })

/-- 42_controller.md R93: STATUS answers in every state and changes nothing of the machine; the fields are the machine's
own outside a run and, but for CTL_STATE, free values during one, numbered by the model's own counter (log 7); the codes
of the tables of 10_state.md section 4. -/
def Obligations.StatusShowsTheFields : Prop :=
  (∀ (s : State) (rest : List Input), s.inputs = .command .status :: rest →
    (s.ctl ≠ .running →
      step s = .next
        { s with
          inputs := rest
          responses := s.responses ++
            [.okStatus s.ctl { fail := s.fail, ip := s.ip, size := s.size, traceEn := s.traceEn }] }) ∧
    (s.ctl = .running →
      step s = .next
        { s with
          inputs := rest
          freeCount := s.freeCount + 1
          responses := s.responses ++ [.okStatus .running (Config.freeStatus (s.freeCount + 1))] })) ∧
  [CtlState.ready, .running, .halted, .failed].map CtlState.code = [0, 1, 2, 3] ∧
  [FailKind.none, .emptyProgram, .unknownOpcode, .outOfRange, .missingHalt, .overflow].map FailKind.code =
    [0, 1, 2, 3, 4, 5] ∧
  [Access.none, .read, .write].map Access.code = [0, 1, 2]

/-- 42_controller.md R94: during a run every command but STATUS gets Busy and has no effect. That the answer comes at once,
in the step that takes the command, and that this step is counted are the model's (log 4, log 7). -/
def Obligations.CommandsAreBusyDuringARun : Prop :=
  ∀ (s : State) (c : Command) (rest : List Input), s.ctl = .running → s.inputs = .command c :: rest →
    (c ≠ .status →
      step s = .next
        { s with inputs := rest, freeCount := s.freeCount + 1, responses := s.responses ++ [.busy] }) ∧
    (c = .status → ∃ t, step s = .next t ∧ t.responses ≠ s.responses ++ [.busy])

/-- 60_exceptions.md R104: a command answered with OutOfRange, Busy, RunRejected, LoadTooLarge or NotLoading changes
neither CTL_STATE nor FAIL, nor anything else but for that answer; that a step of a run is counted is the model's
(log 7). -/
def Obligations.CommandResponsesAreNotFailures : Prop :=
  ∀ (s t : State) (c : Command) (rest : List Input) (r : Response),
    s.inputs = .command c :: rest → step s = .next t → t.responses = s.responses ++ [r] →
    (∃ a, r = .outOfRange a) ∨ r = .busy ∨ r = .runRejected ∨ r = .loadTooLarge ∨ r = .notLoading →
    t.ctl = s.ctl ∧ t.fail = s.fail ∧
      t = { s with inputs := rest, freeCount := t.freeCount, responses := s.responses ++ [r] }

/-- The command signals of the port (42_controller.md section 5): what each `cmd_op` and `cmd_mode` stands for, that a
command offered while `cmd_ready` is high is taken and has the effect of the command it names, and that `cmd_op` 6 and 7
get Busy in a run and RunRejected otherwise, with no effect. That an offer is one input and a step of a run is counted is
the model's (log 4, log 7). -/
def Obligations.PortSignalsNameTheCommands : Prop :=
  (∀ p : CommandPort,
    (p.op = 0 → portCommand p = some .loadClear) ∧ (p.op = 1 → portCommand p = some (.loadAppend p.data)) ∧
    (p.op = 2 → portCommand p = some (.peek p.addr (some (portMode p.mode)))) ∧
    (p.op = 3 → portCommand p = some (.poke p.addr p.data (some (portMode p.mode)))) ∧
    (p.op = 4 → portCommand p = some (.run p.trace)) ∧ (p.op = 5 → portCommand p = some .status) ∧
    (p.op = 6 ∨ p.op = 7 → portCommand p = none) ∧
    ∀ (s : State) (rest : List Input), s.inputs = .port p :: rest → s.cmdOutstanding = false →
      (∀ c, portCommand p = some c → ∃ t, step { s with inputs := .command c :: rest } = .next t ∧
        step s = .next { t with cmdOutstanding := true }) ∧
      (p.op = 6 ∨ p.op = 7 → s.ctl = .running →
        step s = .next
          { s with
            inputs := rest
            cmdOutstanding := true
            freeCount := s.freeCount + 1
            responses := s.responses ++ [.busy] }) ∧
      (p.op = 6 ∨ p.op = 7 → s.ctl ≠ .running →
        step s = .next
          { s with inputs := rest, cmdOutstanding := true, responses := s.responses ++ [.runRejected] })) ∧
  portMode 0 = .position ∧ portMode 1 = .immediate ∧ portMode 2 = .display ∧ portMode 3 = .position

/-- Only one command is outstanding at a time at the port (42_controller.md section 5). `cmd_ready` is high exactly when
none is; a command offered while it is low is not taken: the step changes nothing but the model's own input and counter
(log 4, log 7). One that is taken makes it low and sends one response, or starts the run whose response is yet to come. No
step but the taking of a response outside a run, and reset, makes it high, and the taking of a lone response outside a run
does. That a response taken during a run leaves it low is section 5's own where the port started that run, and the model's
choice where the host gave the RUN at the command level and so mixes the two levels (log 6). -/
def Obligations.PortTakesOneCommandAtATime : Prop :=
  ∀ s t : State, step s = .next t →
    (portOutputs s).cmdReady = !s.cmdOutstanding ∧
    (∀ p rest, s.inputs = .port p :: rest →
      (s.cmdOutstanding = true → t = { s with inputs := rest, freeCount := t.freeCount }) ∧
      (s.cmdOutstanding = false → t.cmdOutstanding = true ∧
        ((∃ r, t.responses = s.responses ++ [r]) ∨
          (t.responses = s.responses ∧ s.ctl = .ready ∧ t.ctl = .running)))) ∧
    (s.cmdOutstanding = true → t.cmdOutstanding = false →
      s.inputs.head? = some .rst ∨ (s.inputs.head? = some .takeResponse ∧ s.ctl ≠ .running)) ∧
    (s.cmdOutstanding = false → t.cmdOutstanding = true → ∃ p, s.inputs.head? = some (.port p)) ∧
    (∀ r rest, s.inputs = .takeResponse :: rest → s.responses = [r] → s.ctl ≠ .running →
      t.cmdOutstanding = false ∧ t.responses = [])

/-- The outputs of the port (42_controller.md section 5): the `st_*` outputs show what a STATUS of that moment returns, in
every state; `rsp_valid`, `rsp_code` and `rsp_data` show the oldest response, `tr_valid` and `tr_record` the oldest trace
record. That a value a STATUS returns in a run is free is said by its having no body (log 7). -/
def Obligations.PortOutputsShowTheMachine : Prop :=
  ∀ s : State,
    (∃ (t : State) (r : StatusRest), step { s with inputs := [.command .status] } = .next t ∧
      t.responses = s.responses ++ [.okStatus s.ctl r] ∧
      (portOutputs s).stState = s.ctl.code ∧ (portOutputs s).stFailKind = r.fail.kind.code ∧
      (portOutputs s).stFailAccess = r.fail.access.code ∧ (portOutputs s).stFailIp = r.fail.ip ∧
      (portOutputs s).stIp = r.ip ∧ (portOutputs s).stSize = r.size ∧
      (portOutputs s).stFailOpcode = r.fail.opcode ∧ (portOutputs s).stFailAddr = r.fail.addr ∧
      (portOutputs s).stTraceEn = r.traceEn) ∧
    (∀ (r : Response) (more : List Response), s.responses = r :: more →
      (portOutputs s).rspValid = true ∧ (portOutputs s).rspCode = some r.code ∧ (portOutputs s).rspData = r.data) ∧
    (s.responses = [] → (portOutputs s).rspValid = false) ∧
    (∀ (r : TraceRecord) (more : List TraceRecord), s.trace = r :: more →
      (portOutputs s).trValid = true ∧ (portOutputs s).trRecord = some r) ∧
    (s.trace = [] → (portOutputs s).trValid = false)

/-- The response codes (42_controller.md section 5) and the names of the trace (30_encoding.md section 6). -/
def Obligations.ResponseCodesAndTraceNames : Prop :=
  (∀ (v a : Cell) (c : CtlState) (r : StatusRest) (f : FailRecord),
    Response.ok.code = 0 ∧ (Response.okValue v).code = 0 ∧ (Response.okStatus c r).code = 0 ∧
    Response.busy.code = 1 ∧ (Response.outOfRange a).code = 2 ∧ Response.runRejected.code = 3 ∧
    Response.loadTooLarge.code = 4 ∧ Response.notLoading.code = 5 ∧ (Response.runFailed f).code = 6 ∧
    (Response.okValue v).data = some v ∧ (Response.outOfRange a).data = some a) ∧
  TraceName.add.text = "Add" ∧ TraceName.multiply.text = "Multiply" ∧ TraceName.halt.text = "Halt"

/-! ## Reset and the controller -/

/-- 70_reset_and_hazards.md R115, R116: reset puts every piece of state at its reset value whatever it was, a run included:
no failure is recorded, the RUN gets no response, the memory is lost; a RUN right after it fails with EmptyProgram; and
nothing else from outside ends a run. That the parameters and the host's later inputs stay is the model's (log 15). -/
def Obligations.ResetPutsEveryFieldAtItsValue : Prop :=
  (∀ (s : State) (rest : List Input), s.inputs = .rst :: rest →
    ∃ t, step s = .next t ∧ t.ip = 0 ∧ t.ctl = .ready ∧
      t.fail = { kind := .none, ip := 0, opcode := 0, addr := 0, access := .none } ∧
      t.size = 0 ∧ (∀ a, cellAt a t = none) ∧ t.traceEn = false ∧ t.responses = [] ∧ t.trace = [] ∧
      t.cmdOutstanding = false ∧ t.params = s.params ∧ t.inputs = rest ∧
      ∀ b more, rest = .command (.run b) :: more →
        ∃ u, step t = .next u ∧ u.ctl = .failed ∧ u.fail.kind = .emptyProgram) ∧
  (∀ s t : State, s.ctl = .running → step s = .next t → t.ctl ≠ .running →
    cycleDue s ∨ s.inputs.head? = some .rst)

/-- The state right after reset has the values of the table of 70_reset_and_hazards.md section 1, and the parameters of
00_scope.md section 4: W = 64, Wrap, Position for all six operands, Immediate for the host. -/
def Obligations.ResetStateHasTheResetValues : Prop :=
  State.reset.ip = 0 ∧ State.reset.ctl = .ready ∧
  State.reset.fail = { kind := .none, ip := 0, opcode := 0, addr := 0, access := .none } ∧
  State.reset.size = 0 ∧ (∀ a, cellAt a State.reset = none) ∧ State.reset.traceEn = false ∧
  State.reset.responses = [] ∧ State.reset.trace = [] ∧ State.reset.cmdOutstanding = false ∧
  State.reset.params.width = 64 ∧ State.reset.params.overflowMode = .wrap ∧
  State.reset.params.addModes = { m1 := .position, m2 := .position, m3 := .position } ∧
  State.reset.params.mulModes = { m1 := .position, m2 := .position, m3 := .position } ∧
  State.reset.params.hostModeDefault = .immediate ∧
  1 ≤ State.reset.params.memCap ∧ State.reset.params.memCap ≤ 2 ^ 63 - 4

/-- 60_exceptions.md R114: Ready, Halted and Failed last until the host acts, and every piece of state survives. -/
def Obligations.IdleStatesKeepEverything : Prop :=
  ∀ (k : Nat) (s : State), s.ctl ≠ .running → s.inputs = [] → runSteps k s = .next s

/-- The controller's transitions are exactly the table of 42_controller.md section 1: each row with its condition, and that
nothing else changes CTL_STATE. -/
def Obligations.ControllerFollowsItsTable : Prop :=
  ∀ s t : State, step s = .next t →
    (∀ b, s.ctl = .ready → commandTaken s = some (.run b) → s.size = 0 →
      t.ctl = .failed ∧ t.fail.kind = .emptyProgram ∧ t.traceEn = b) ∧
    (∀ b, s.ctl = .ready → commandTaken s = some (.run b) → 0 < s.size →
      t.ctl = .running ∧ t.ip = 0 ∧ t.traceEn = b) ∧
    (cycleDue s → cellAt s.ip s = some 99 → t.ctl = .halted) ∧
    (∀ (ms : OperandModes) (f : Int → Int → Int), cycleDue s →
      (cellAt s.ip s = some 1 ∧ ms = s.params.addModes ∧ f = fun a b => a + b) ∨
        (cellAt s.ip s = some 2 ∧ ms = s.params.mulModes ∧ f = fun a b => a * b) →
      (∀ bad,
        resolveOperands ms (cellAt (s.ip + 1) s) (cellAt (s.ip + 2) s) (cellAt (s.ip + 3) s) s = .error bad →
        t.ctl = .failed ∧ t.fail.kind = .outOfRange ∧ t.ip = s.ip ∧ t.mem = s.mem) ∧
      (∀ o, resolveOperands ms (cellAt (s.ip + 1) s) (cellAt (s.ip + 2) s) (cellAt (s.ip + 3) s) s = .ok o →
        (s.params.overflowMode = .fault → fitsW s.params.width (f o.v1 o.v2) = false →
          t.ctl = .failed ∧ t.fail.kind = .overflow ∧ t.ip = s.ip ∧ t.mem = s.mem) ∧
        (s.params.overflowMode = .wrap ∨ fitsW s.params.width (f o.v1 o.v2) = true → validAddr o.dst s = false →
          t.ctl = .failed ∧ t.fail.kind = .outOfRange ∧ t.ip = s.ip ∧ t.mem = s.mem) ∧
        (s.params.overflowMode = .wrap ∨ fitsW s.params.width (f o.v1 o.v2) = true → validAddr o.dst s = true →
          cellAt o.dst t = some (wrapW s.params.width (f o.v1 o.v2)) ∧
          (∀ a, a ≠ o.dst → cellAt a t = cellAt a s) ∧ t.ip = s.ip + 4 ∧
          (s.ip + 4 < s.size → t.ctl = .running) ∧
          (s.size ≤ s.ip + 4 → t.ctl = .failed ∧ t.fail.kind = .missingHalt)))) ∧
    (∀ op, cycleDue s → cellAt s.ip s = some op → op ≠ 1 → op ≠ 2 → op ≠ 99 →
      t.ctl = .failed ∧ t.fail.kind = .unknownOpcode) ∧
    (s.ctl ≠ .running → commandTaken s = some .loadClear → t.ctl = .ready) ∧
    (s.inputs.head? = some .rst → t.ctl = .ready) ∧
    (t.ctl ≠ s.ctl →
      cycleDue s ∨ s.inputs.head? = some .rst ∨
      (s.ctl ≠ .running ∧ commandTaken s = some .loadClear) ∨
      (s.ctl = .ready ∧ ∃ b, commandTaken s = some (.run b)))

/-- 20_memory.md R29: no instruction changes SIZE, and of all the machine does only the load commands change it (and reset,
70_reset_and_hazards.md section 1). -/
def Obligations.SizeChangesOnlyByLoads : Prop :=
  (∀ (i : Instr) (s t : State), exec i s = .next t → t.size = s.size) ∧
  (∀ s t : State, step s = .next t → t.size ≠ s.size →
    commandTaken s = some .loadClear ∨ (∃ v, commandTaken s = some (.loadAppend v)) ∨
      s.inputs.head? = some .rst)

/-- Where ip is written (10_state.md section 2, 42_controller.md sections 2 and 5): to ip + 4 by a cycle of opcode 1 or 2,
to 0 by RUN, LOAD_CLEAR and reset, and nowhere else. -/
def Obligations.IpIsWrittenNowhereElse : Prop :=
  ∀ s t : State, step s = .next t → t.ip ≠ s.ip →
    (cycleDue s ∧ t.ip = s.ip + 4 ∧ (cellAt s.ip s = some 1 ∨ cellAt s.ip s = some 2)) ∨
    (t.ip = 0 ∧ (s.inputs.head? = some .rst ∨ commandTaken s = some .loadClear ∨
      ∃ b, commandTaken s = some (.run b)))

/-- The parameters of 00_scope.md section 4 are an implementation's: no step changes them (that they are fields of the
state is the model's, log 2). -/
def Obligations.ParametersNeverChange : Prop :=
  ∀ (k : Nat) (s t : State), runSteps k s = .next t → t.params = s.params

/-- Every step of every state answers a next state: no instruction, opcode, operand or command stops the model
(60_exceptions.md sections 1 and 2, 42_controller.md section 1). A fetch outside memory, which no run reaches, is the
model's choice (log 12). -/
def Obligations.EveryStepAnswersANextState : Prop :=
  ∀ s : State, ∃ t, step s = .next t

/-! ## The trace -/

/-- 42_controller.md R86: one record for each executed instruction when TRACE_EN = 1, with these fields; an ADD or MUL is
recorded once its operands resolve, however it ends; nothing is recorded for an unknown opcode, for a resolution that
faults, or for an EmptyProgram RUN. -/
def Obligations.TraceRecordsEachInstruction : Prop :=
  (∀ (s t : State) (name : TraceName) (ms : OperandModes), s.ctl = .running → s.inputs = [] → step s = .next t →
    (cellAt s.ip s = some 1 ∧ name = .add ∧ ms = s.params.addModes) ∨
      (cellAt s.ip s = some 2 ∧ name = .multiply ∧ ms = s.params.mulModes) →
    (∀ v1 v2 dst, resolveRead (s.ip + 1) ms.m1 s = .ok v1 → resolveRead (s.ip + 2) ms.m2 s = .ok v2 →
      resolveWrite (s.ip + 3) ms.m3 s = .ok dst →
      t.trace = if s.traceEn then s.trace ++
        [{ name := name, ip := s.ip, operands :=
          [ { mode := ms.m1, raw := cellAt (s.ip + 1) s, resolved := .value v1 },
            { mode := ms.m2, raw := cellAt (s.ip + 2) s, resolved := .value v2 },
            { mode := ms.m3, raw := cellAt (s.ip + 3) s, resolved := .address dst } ] }] else s.trace) ∧
    (∀ bad, resolveRead (s.ip + 1) ms.m1 s = .error bad ∨ resolveRead (s.ip + 2) ms.m2 s = .error bad ∨
      resolveWrite (s.ip + 3) ms.m3 s = .error bad → t.trace = s.trace)) ∧
  (∀ s t : State, s.ctl = .running → s.inputs = [] → step s = .next t → cellAt s.ip s = some 99 →
    t.trace = if s.traceEn then s.trace ++ [{ name := .halt, ip := s.ip, operands := [] }] else s.trace) ∧
  (∀ (s t : State) (op : Cell), s.ctl = .running → s.inputs = [] → step s = .next t → cellAt s.ip s = some op →
    op ≠ 1 → op ≠ 2 → op ≠ 99 → t.trace = s.trace) ∧
  (∀ (s t : State) (b : Bool) (rest : List Input), s.ctl = .ready → s.size = 0 →
    s.inputs = .command (.run b) :: rest → step s = .next t → t.trace = s.trace)

/-- 42_controller.md R87: tracing changes nothing the machine computes. A run with another trace flag and other records
waiting ends in the same state but for those; with the flag off, nothing is recorded. -/
def Obligations.TracingChangesNothing : Prop :=
  ∀ (k : Nat) (s t : State) (b : Bool) (records : List TraceRecord), s.inputs = [] → runSteps k s = .next t →
    ∃ t', runSteps k { s with traceEn := b, trace := records } = .next t' ∧
      t' = { t with traceEn := b, trace := t'.trace } ∧ (b = false → t'.trace = records)

/-! ## Whole runs -/

/-- A run is deterministic (42_controller.md section 3, R84, an inference the spec marks as derived): ip, CTL_STATE, FAIL,
SIZE and MEM after any number of steps depend on nothing but their values before and the parameters. -/
def Obligations.RunDependsOnItsViewAlone : Prop :=
  ∀ (k : Nat) (s s' : State), s.inputs = [] → s'.inputs = [] → s.view = s'.view →
    ∃ t t', runSteps k s = .next t ∧ runSteps k s' = .next t' ∧ t.view = t'.view

/-- Every run ends (42_controller.md section 3, R83, an inference the spec marks as derived): after at most
ceil(SIZE / 4) cycles from its start it is Halted or Failed, and the RUN command has had its one response, which the model
sends in the step that ends the run (log 5). -/
def Obligations.EveryRunEndsInTime : Prop :=
  ∀ s : State, s.ctl = .running → s.inputs = [] → s.ip = 0 → 0 < s.size →
    ∃ t, runSteps ((s.size + 3) / 4) s = .next t ∧ Ended t ∧
      (t.ctl = .halted → t.responses = s.responses ++ [.ok]) ∧
      (t.ctl = .failed → t.responses = s.responses ++ [.runFailed t.fail])

/-- During a run ip takes the values 0, 4, 8, ... in order (42_controller.md section 3, R85, an inference the spec marks as
derived): after k cycles of a run that still goes on, ip is 4k. -/
def Obligations.IpCountsByFours : Prop :=
  ∀ (k : Nat) (s t : State), s.ctl = .running → s.inputs = [] → s.ip = 0 → runSteps k s = .next t →
    t.ctl = .running → t.ip = 4 * k ∧ (k = 0 ∨ t.ip < t.size)

/-- The write of an ADD or MUL into the cells of the next instruction is seen by the very next fetch
(20_memory.md section 6, 70_reset_and_hazards.md section 3). -/
def Obligations.NextFetchSeesTheWrite : Prop :=
  ∀ (s t : State) (p1 p2 p3 : Option Cell) (o : Op3Operands) (i : Instr) (ms : OperandModes) (n : Int) (k : Nat),
    (i = .add p1 p2 p3 ∧ ms = s.params.addModes ∧ n = o.v1 + o.v2) ∨
      (i = .mul p1 p2 p3 ∧ ms = s.params.mulModes ∧ n = o.v1 * o.v2) →
    resolveOperands ms p1 p2 p3 s = .ok o → validAddr o.dst s = true →
    fitsW s.params.width n = true ∨ s.params.overflowMode = .wrap → s.ip + 4 < s.size → exec i s = .next t → k < 4 →
    (fetchCells t)[k]? =
      if o.dst = s.ip + 4 + k then some (wrapW s.params.width n) else cellAt (s.ip + 4 + k) s

/-! ## The invariant -/

/-- The invariant of Safety.lean holds right after reset, whatever MEM_CAP the bounds of 00_scope.md section 4 allow
(log 3). -/
def Obligations.InvariantHoldsAtReset : Prop := Inv State.reset

/-- Every step keeps it, whatever the host does: the memory's canonical form (the model's, log 1), every cell a W-bit
value, SIZE <= MEM_CAP, ip inside memory and a multiple of 4 in a run, FAIL clear but in Failed and shaped by its kind, and
a response waiting or a run going on for a command outstanding at the port, which for a host that mixes the two levels of
commands is the model's choice (log 6) (10_state.md sections 1 to 5, 42_controller.md sections 2, 3 and 5). -/
def Obligations.EveryStepKeepsTheInvariant : Prop :=
  ∀ s t : State, Inv s → step s = .next t → Inv t
end

