-- ==== Sys2Proof/Laws/Decode.lean ====
section
/-!
SUPPORT. What the decoder can answer, once.
-/

namespace Sys2Proof

theorem decode_add (ps : List Cell) : decode (1 :: ps) = .ok (.add ps[0]? ps[1]? ps[2]?) := by
  simp [decode]

theorem decode_mul (ps : List Cell) : decode (2 :: ps) = .ok (.mul ps[0]? ps[1]? ps[2]?) := by
  simp [decode]

theorem decode_halt (ps : List Cell) : decode (99 :: ps) = .ok .halt := by
  simp [decode]

theorem decode_unknown {op : Cell} (ps : List Cell) (h1 : op ≠ 1) (h2 : op ≠ 2) (h99 : op ≠ 99) :
    decode (op :: ps) = .error (.unknownOpcode op) := by
  simp [decode, h1, h2, h99]

/-- Every answer of the decoder: by the opcode cell alone (30_encoding.md R54, R57, R59). -/
theorem decode_cases (cells : List Cell) :
    (cells = [] ∧ decode cells = .error .noOpcodeCell) ∨
    (∃ ps, cells = 1 :: ps ∧ decode cells = .ok (.add ps[0]? ps[1]? ps[2]?)) ∨
    (∃ ps, cells = 2 :: ps ∧ decode cells = .ok (.mul ps[0]? ps[1]? ps[2]?)) ∨
    (∃ ps, cells = 99 :: ps ∧ decode cells = .ok .halt) ∨
    (∃ op ps, cells = op :: ps ∧ op ≠ 1 ∧ op ≠ 2 ∧ op ≠ 99 ∧
      decode cells = .error (.unknownOpcode op)) := by
  cases cells with
  | nil => exact .inl ⟨rfl, rfl⟩
  | cons op ps =>
    right
    by_cases h1 : op = 1
    · exact .inl ⟨ps, by rw [h1], by rw [h1, decode_add]⟩
    · by_cases h2 : op = 2
      · exact .inr (.inl ⟨ps, by rw [h2], by rw [h2, decode_mul]⟩)
      · by_cases h99 : op = 99
        · exact .inr (.inr (.inl ⟨ps, by rw [h99], by rw [h99, decode_halt]⟩))
        · exact .inr (.inr (.inr ⟨op, ps, rfl, h1, h2, h99, decode_unknown ps h1 h2 h99⟩))

end Sys2Proof
end

