-- ==== Sys2Proof/Laws/State.lean ====
section
/-!
SUPPORT. One lemma for each field and each shared update of the state, so that no proof unfolds a record update.
-/

namespace Sys2Proof.Machine

@[simp] theorem respond_ip (r : Response) (s : State) : (respond r s).ip = s.ip := rfl
@[simp] theorem respond_ctl (r : Response) (s : State) : (respond r s).ctl = s.ctl := rfl
@[simp] theorem respond_fail (r : Response) (s : State) : (respond r s).fail = s.fail := rfl
@[simp] theorem respond_size (r : Response) (s : State) : (respond r s).size = s.size := rfl
@[simp] theorem respond_mem (r : Response) (s : State) : (respond r s).mem = s.mem := rfl
@[simp] theorem respond_traceEn (r : Response) (s : State) : (respond r s).traceEn = s.traceEn := rfl
@[simp] theorem respond_params (r : Response) (s : State) : (respond r s).params = s.params := rfl
@[simp] theorem respond_inputs (r : Response) (s : State) : (respond r s).inputs = s.inputs := rfl
@[simp] theorem respond_cmdOutstanding (r : Response) (s : State) : (respond r s).cmdOutstanding = s.cmdOutstanding := rfl
@[simp] theorem respond_responses (r : Response) (s : State) : (respond r s).responses = s.responses ++ [r] := rfl
@[simp] theorem respond_trace (r : Response) (s : State) : (respond r s).trace = s.trace := rfl
@[simp] theorem respond_freeCount (r : Response) (s : State) : (respond r s).freeCount = s.freeCount := rfl

@[simp] theorem emitTrace_ip (r : TraceRecord) (s : State) : (emitTrace r s).ip = s.ip := rfl
@[simp] theorem emitTrace_ctl (r : TraceRecord) (s : State) : (emitTrace r s).ctl = s.ctl := rfl
@[simp] theorem emitTrace_fail (r : TraceRecord) (s : State) : (emitTrace r s).fail = s.fail := rfl
@[simp] theorem emitTrace_size (r : TraceRecord) (s : State) : (emitTrace r s).size = s.size := rfl
@[simp] theorem emitTrace_mem (r : TraceRecord) (s : State) : (emitTrace r s).mem = s.mem := rfl
@[simp] theorem emitTrace_traceEn (r : TraceRecord) (s : State) : (emitTrace r s).traceEn = s.traceEn := rfl
@[simp] theorem emitTrace_params (r : TraceRecord) (s : State) : (emitTrace r s).params = s.params := rfl
@[simp] theorem emitTrace_inputs (r : TraceRecord) (s : State) : (emitTrace r s).inputs = s.inputs := rfl
@[simp] theorem emitTrace_cmdOutstanding (r : TraceRecord) (s : State) : (emitTrace r s).cmdOutstanding = s.cmdOutstanding := rfl
@[simp] theorem emitTrace_responses (r : TraceRecord) (s : State) : (emitTrace r s).responses = s.responses := rfl
@[simp] theorem emitTrace_trace (r : TraceRecord) (s : State) : (emitTrace r s).trace = if s.traceEn then s.trace ++ [r] else s.trace := rfl
@[simp] theorem emitTrace_freeCount (r : TraceRecord) (s : State) : (emitTrace r s).freeCount = s.freeCount := rfl

@[simp] theorem raise_ip (f : Failure) (s : State) : (raise f s).ip = s.ip := rfl
@[simp] theorem raise_ctl (f : Failure) (s : State) : (raise f s).ctl = .failed := rfl
@[simp] theorem raise_fail (f : Failure) (s : State) : (raise f s).fail = f.record s.ip := rfl
@[simp] theorem raise_size (f : Failure) (s : State) : (raise f s).size = s.size := rfl
@[simp] theorem raise_mem (f : Failure) (s : State) : (raise f s).mem = s.mem := rfl
@[simp] theorem raise_traceEn (f : Failure) (s : State) : (raise f s).traceEn = s.traceEn := rfl
@[simp] theorem raise_params (f : Failure) (s : State) : (raise f s).params = s.params := rfl
@[simp] theorem raise_inputs (f : Failure) (s : State) : (raise f s).inputs = s.inputs := rfl
@[simp] theorem raise_cmdOutstanding (f : Failure) (s : State) : (raise f s).cmdOutstanding = s.cmdOutstanding := rfl
@[simp] theorem raise_responses (f : Failure) (s : State) : (raise f s).responses = s.responses ++ [.runFailed (f.record s.ip)] := rfl
@[simp] theorem raise_trace (f : Failure) (s : State) : (raise f s).trace = s.trace := rfl
@[simp] theorem raise_freeCount (f : Failure) (s : State) : (raise f s).freeCount = s.freeCount := rfl

@[simp] theorem haltRun_ip (s : State) : (haltRun s).ip = s.ip := rfl
@[simp] theorem haltRun_ctl (s : State) : (haltRun s).ctl = .halted := rfl
@[simp] theorem haltRun_fail (s : State) : (haltRun s).fail = s.fail := rfl
@[simp] theorem haltRun_size (s : State) : (haltRun s).size = s.size := rfl
@[simp] theorem haltRun_mem (s : State) : (haltRun s).mem = s.mem := rfl
@[simp] theorem haltRun_traceEn (s : State) : (haltRun s).traceEn = s.traceEn := rfl
@[simp] theorem haltRun_params (s : State) : (haltRun s).params = s.params := rfl
@[simp] theorem haltRun_inputs (s : State) : (haltRun s).inputs = s.inputs := rfl
@[simp] theorem haltRun_cmdOutstanding (s : State) : (haltRun s).cmdOutstanding = s.cmdOutstanding := rfl
@[simp] theorem haltRun_responses (s : State) : (haltRun s).responses = s.responses ++ [.ok] := rfl
@[simp] theorem haltRun_trace (s : State) : (haltRun s).trace = s.trace := rfl
@[simp] theorem haltRun_freeCount (s : State) : (haltRun s).freeCount = s.freeCount := rfl

@[simp] theorem loadClear_ip (s : State) : (loadClear s).ip = 0 := rfl
@[simp] theorem loadClear_ctl (s : State) : (loadClear s).ctl = .ready := rfl
@[simp] theorem loadClear_fail (s : State) : (loadClear s).fail = FailRecord.clear := rfl
@[simp] theorem loadClear_size (s : State) : (loadClear s).size = 0 := rfl
@[simp] theorem loadClear_mem (s : State) : (loadClear s).mem = [] := rfl
@[simp] theorem loadClear_traceEn (s : State) : (loadClear s).traceEn = false := rfl
@[simp] theorem loadClear_params (s : State) : (loadClear s).params = s.params := rfl
@[simp] theorem loadClear_inputs (s : State) : (loadClear s).inputs = s.inputs := rfl
@[simp] theorem loadClear_cmdOutstanding (s : State) : (loadClear s).cmdOutstanding = s.cmdOutstanding := rfl
@[simp] theorem loadClear_responses (s : State) : (loadClear s).responses = s.responses := rfl
@[simp] theorem loadClear_trace (s : State) : (loadClear s).trace = s.trace := rfl
@[simp] theorem loadClear_freeCount (s : State) : (loadClear s).freeCount = s.freeCount := rfl

@[simp] theorem assertReset_ip (s : State) : (assertReset s).ip = 0 := rfl
@[simp] theorem assertReset_ctl (s : State) : (assertReset s).ctl = .ready := rfl
@[simp] theorem assertReset_fail (s : State) : (assertReset s).fail = FailRecord.clear := rfl
@[simp] theorem assertReset_size (s : State) : (assertReset s).size = 0 := rfl
@[simp] theorem assertReset_mem (s : State) : (assertReset s).mem = [] := rfl
@[simp] theorem assertReset_traceEn (s : State) : (assertReset s).traceEn = false := rfl
@[simp] theorem assertReset_params (s : State) : (assertReset s).params = s.params := rfl
@[simp] theorem assertReset_inputs (s : State) : (assertReset s).inputs = s.inputs := rfl
@[simp] theorem assertReset_cmdOutstanding (s : State) : (assertReset s).cmdOutstanding = false := rfl
@[simp] theorem assertReset_responses (s : State) : (assertReset s).responses = [] := rfl
@[simp] theorem assertReset_trace (s : State) : (assertReset s).trace = [] := rfl
@[simp] theorem assertReset_freeCount (s : State) : (assertReset s).freeCount = s.freeCount := rfl

@[simp] theorem countStep_ip (s : State) : (s.countStep).ip = s.ip := rfl
@[simp] theorem countStep_ctl (s : State) : (s.countStep).ctl = s.ctl := rfl
@[simp] theorem countStep_fail (s : State) : (s.countStep).fail = s.fail := rfl
@[simp] theorem countStep_size (s : State) : (s.countStep).size = s.size := rfl
@[simp] theorem countStep_mem (s : State) : (s.countStep).mem = s.mem := rfl
@[simp] theorem countStep_traceEn (s : State) : (s.countStep).traceEn = s.traceEn := rfl
@[simp] theorem countStep_params (s : State) : (s.countStep).params = s.params := rfl
@[simp] theorem countStep_inputs (s : State) : (s.countStep).inputs = s.inputs := rfl
@[simp] theorem countStep_cmdOutstanding (s : State) : (s.countStep).cmdOutstanding = s.cmdOutstanding := rfl
@[simp] theorem countStep_responses (s : State) : (s.countStep).responses = s.responses := rfl
@[simp] theorem countStep_trace (s : State) : (s.countStep).trace = s.trace := rfl

/-- Outside a run no step is counted. -/
theorem countStep_idle {s : State} (h : s.ctl ≠ .running) : s.countStep = s := by
  simp [State.countStep, h]

/-- In a run every step is. -/
theorem countStep_running {s : State} (h : s.ctl = .running) :
    s.countStep = { s with freeCount := s.freeCount + 1 } := by
  simp [State.countStep, h]

@[simp] theorem takeResponse_ip (s : State) : (takeResponse s).ip = s.ip := rfl
@[simp] theorem takeResponse_ctl (s : State) : (takeResponse s).ctl = s.ctl := rfl
@[simp] theorem takeResponse_fail (s : State) : (takeResponse s).fail = s.fail := rfl
@[simp] theorem takeResponse_size (s : State) : (takeResponse s).size = s.size := rfl
@[simp] theorem takeResponse_mem (s : State) : (takeResponse s).mem = s.mem := rfl
@[simp] theorem takeResponse_traceEn (s : State) : (takeResponse s).traceEn = s.traceEn := rfl
@[simp] theorem takeResponse_params (s : State) : (takeResponse s).params = s.params := rfl
@[simp] theorem takeResponse_inputs (s : State) : (takeResponse s).inputs = s.inputs := rfl
@[simp] theorem takeResponse_trace (s : State) : (takeResponse s).trace = s.trace := rfl
@[simp] theorem takeResponse_freeCount (s : State) : (takeResponse s).freeCount = s.freeCount := rfl
@[simp] theorem takeResponse_responses (s : State) : (takeResponse s).responses = s.responses.tail := rfl

@[simp] theorem afterInput_ip (s : State) : (s.afterInput).ip = s.ip := rfl
@[simp] theorem afterInput_ctl (s : State) : (s.afterInput).ctl = s.ctl := rfl
@[simp] theorem afterInput_fail (s : State) : (s.afterInput).fail = s.fail := rfl
@[simp] theorem afterInput_size (s : State) : (s.afterInput).size = s.size := rfl
@[simp] theorem afterInput_mem (s : State) : (s.afterInput).mem = s.mem := rfl
@[simp] theorem afterInput_traceEn (s : State) : (s.afterInput).traceEn = s.traceEn := rfl
@[simp] theorem afterInput_params (s : State) : (s.afterInput).params = s.params := rfl
@[simp] theorem afterInput_inputs (s : State) : (s.afterInput).inputs = s.inputs.tail := rfl
@[simp] theorem afterInput_responses (s : State) : (s.afterInput).responses = s.responses := rfl
@[simp] theorem afterInput_trace (s : State) : (s.afterInput).trace = s.trace := rfl
@[simp] theorem afterInput_freeCount (s : State) : (s.afterInput).freeCount = s.countStep.freeCount := rfl
@[simp] theorem afterInput_cmdOutstanding (s : State) : (s.afterInput).cmdOutstanding = s.cmdOutstanding := rfl

theorem reset_ip : State.reset.ip = 0 := rfl
theorem reset_ctl : State.reset.ctl = .ready := rfl
theorem reset_fail : State.reset.fail = FailRecord.clear := rfl
theorem reset_size : State.reset.size = 0 := rfl
theorem reset_cmdOutstanding : State.reset.cmdOutstanding = false := rfl
theorem reset_mem : State.reset.mem = [] := rfl
theorem reset_traceEn : State.reset.traceEn = false := rfl
theorem reset_params : State.reset.params = Params.default := rfl

@[simp] theorem record_ip (f : Failure) (ip : Nat) : (f.record ip).ip = ip := by
  cases f <;> rfl

@[simp] theorem record_kind_ne_none (f : Failure) (ip : Nat) : (f.record ip).kind ≠ .none := by
  cases f <;> simp [Failure.record]

end Sys2Proof.Machine
end

