-- ==== Sys2Proof/Laws/Memory.lean ====
section
/-!
SUPPORT. The laws of the list of cells: read after write, every other address untouched, the canonical form is kept, and
equal contents in that form are equal lists (log 1).
-/

namespace Sys2Proof.Machine

/-! ## Reading after a write -/

@[simp] theorem Memory.erase_nil (a : Nat) : Memory.erase [] a = [] := rfl

theorem Memory.erase_cons (k a : Nat) (w : Cell) (m : Memory) :
    Memory.erase ((k, w) :: m) a = if k = a then Memory.erase m a else (k, w) :: Memory.erase m a := by
  by_cases hk : k = a <;> simp [Memory.erase, hk]

theorem Memory.get_erase (m : Memory) (a b : Nat) :
    Memory.get (Memory.erase m a) b = if b = a then 0 else Memory.get m b := by
  induction m with
  | nil => simp [Memory.get]
  | cons c m ih =>
    obtain ⟨k, w⟩ := c
    rw [Memory.erase_cons]
    by_cases hk : k = a
    · subst hk
      by_cases hb : b = k
      · simpa [hb] using ih
      · simpa [Memory.get, hb, Ne.symm hb] using ih
    · by_cases hkb : k = b
      · subst hkb; simp [Memory.get, hk]
      · simpa [Memory.get, hk, hkb] using ih

theorem Memory.get_insert (m : Memory) (a b : Nat) (v : Cell) :
    Memory.get (Memory.insert m a v) b = if b = a then v else Memory.get m b := by
  induction m with
  | nil => simp [Memory.insert, Memory.get, eq_comm]
  | cons c m ih =>
    obtain ⟨k, w⟩ := c
    unfold Memory.insert
    by_cases hlt : a < k
    · simp [hlt, Memory.get, eq_comm]
    · by_cases hk : a = k
      · subst hk
        by_cases hb : b = a
        · simp [Memory.get, hb]
        · simp [Memory.get, hb, Ne.symm hb]
      · by_cases hkb : k = b
        · subst hkb; simp [hlt, hk, Memory.get, Ne.symm hk]
        · simp [hlt, hk, Memory.get, hkb, ih]

/-- A write is read back, and every other address reads as before: for every list, canonical or not. -/
theorem Memory.get_put (m : Memory) (a b : Nat) (v : Cell) :
    Memory.get (Memory.put m a v) b = if b = a then v else Memory.get m b := by
  unfold Memory.put
  by_cases hv : v = 0
  · subst hv; simp [Memory.get_erase]
  · simp [hv, Memory.get_insert]

@[simp] theorem Memory.get_put_same (m : Memory) (a : Nat) (v : Cell) :
    Memory.get (Memory.put m a v) a = v := by
  simp [Memory.get_put]

theorem Memory.get_put_other (m : Memory) {a b : Nat} (v : Cell) (h : b ≠ a) :
    Memory.get (Memory.put m a v) b = Memory.get m b := by
  simp [Memory.get_put, h]

theorem Memory.get_putAll (vs : List Cell) (m : Memory) (a b : Nat) :
    Memory.get (Memory.putAll m a vs) b =
      if a ≤ b ∧ b < a + vs.length then vs.getD (b - a) 0 else Memory.get m b := by
  induction vs generalizing m a with
  | nil => simp [Memory.putAll]
  | cons v vs ih =>
    simp only [Memory.putAll, ih, Memory.get_put, List.length_cons]
    by_cases hb : b = a
    · subst hb
      rw [if_neg (by omega), if_pos rfl, if_pos (by omega)]
      simp
    · by_cases hin : a + 1 ≤ b ∧ b < a + 1 + vs.length
      · obtain ⟨d, rfl⟩ : ∃ d, b = a + 1 + d := ⟨b - (a + 1), by omega⟩
        rw [if_pos hin, if_pos (by omega)]
        have h1 : a + 1 + d - (a + 1) = d := by omega
        have h2 : a + 1 + d - a = d + 1 := by omega
        rw [h1, h2, List.getD_cons_succ]
      · rw [if_neg hin, if_neg hb, if_neg (by omega)]

/-! ## The canonical form -/

theorem Memory.wfFrom_weaken {m : Memory} {lo lo' : Nat} (hle : lo' ≤ lo)
    (h : Memory.wfFrom lo m = true) : Memory.wfFrom lo' m = true := by
  cases m with
  | nil => rfl
  | cons c m =>
    obtain ⟨k, w⟩ := c
    simp only [Memory.wfFrom, Bool.and_eq_true, decide_eq_true_eq] at h ⊢
    exact ⟨⟨by omega, h.1.2⟩, h.2⟩

theorem Memory.wfFrom_erase {m : Memory} {lo : Nat} (a : Nat) (h : Memory.wfFrom lo m = true) :
    Memory.wfFrom lo (Memory.erase m a) = true := by
  induction m generalizing lo with
  | nil => rfl
  | cons c m ih =>
    obtain ⟨k, w⟩ := c
    simp only [Memory.wfFrom, Bool.and_eq_true, decide_eq_true_eq] at h
    rw [Memory.erase_cons]
    by_cases hk : k = a
    · rw [if_pos hk]
      exact Memory.wfFrom_weaken (by omega) (ih h.2)
    · rw [if_neg hk]
      simp [Memory.wfFrom, h.1.1, h.1.2, ih h.2]

theorem Memory.wfFrom_insert {m : Memory} {lo a : Nat} {v : Cell} (hlo : lo ≤ a) (hv : v ≠ 0)
    (h : Memory.wfFrom lo m = true) : Memory.wfFrom lo (Memory.insert m a v) = true := by
  induction m generalizing lo with
  | nil => simp [Memory.insert, Memory.wfFrom, hlo, hv]
  | cons c m ih =>
    obtain ⟨k, w⟩ := c
    simp only [Memory.wfFrom, Bool.and_eq_true, decide_eq_true_eq] at h
    unfold Memory.insert
    by_cases hlt : a < k
    · have : a + 1 ≤ k := hlt
      simp [hlt, Memory.wfFrom, hlo, hv, this, h.1.2, h.2]
    · by_cases hk : a = k
      · subst hk; simp [Memory.wfFrom, hlo, hv, h.2]
      · simp [hlt, hk, Memory.wfFrom, h.1.1, h.1.2, ih (lo := k + 1) (by omega) h.2]

/-- A write keeps the canonical form. -/
theorem Memory.wf_put {m : Memory} (a : Nat) (v : Cell) (h : Memory.wf m = true) :
    Memory.wf (Memory.put m a v) = true := by
  unfold Memory.put
  by_cases hv : v = 0
  · rw [if_pos hv]; exact Memory.wfFrom_erase a h
  · rw [if_neg hv]; exact Memory.wfFrom_insert (Nat.zero_le a) hv h

theorem Memory.wf_putAll (vs : List Cell) {m : Memory} (a : Nat) (h : Memory.wf m = true) :
    Memory.wf (Memory.putAll m a vs) = true := by
  induction vs generalizing m a with
  | nil => exact h
  | cons v vs ih => exact ih (a + 1) (Memory.wf_put a v h)

theorem Memory.below_mono {m : Memory} {n n' : Nat} (hle : n ≤ n') (h : Memory.below m n = true) :
    Memory.below m n' = true := by
  simp only [Memory.below, List.all_eq_true, decide_eq_true_eq] at h ⊢
  intro c hc
  have := h c hc
  omega

theorem Memory.mem_insert {m : Memory} {a : Nat} {v : Cell} {c : Nat × Cell}
    (h : c ∈ Memory.insert m a v) : c = (a, v) ∨ c ∈ m := by
  induction m with
  | nil => simpa [Memory.insert] using h
  | cons d m ih =>
    obtain ⟨k, w⟩ := d
    unfold Memory.insert at h
    split_ifs at h with h1 h2
    · simpa using h
    · rcases List.mem_cons.mp h with h | h
      · exact .inl h
      · exact .inr (List.mem_cons_of_mem _ h)
    · rcases List.mem_cons.mp h with h | h
      · exact .inr (h ▸ List.mem_cons_self)
      · exact (ih h).imp id (List.mem_cons_of_mem _)

/-- A write below SIZE leaves every pair below SIZE. -/
theorem Memory.below_put {m : Memory} {n a : Nat} (v : Cell) (ha : a < n)
    (h : Memory.below m n = true) : Memory.below (Memory.put m a v) n = true := by
  simp only [Memory.below, List.all_eq_true, decide_eq_true_eq] at h ⊢
  intro c hc
  unfold Memory.put at hc
  split at hc
  · exact h c (List.mem_of_mem_filter hc)
  · rcases Memory.mem_insert hc with rfl | hc
    · exact ha
    · exact h c hc

theorem Memory.get_of_lt_wfFrom {m : Memory} {lo a : Nat} (ha : a < lo)
    (h : Memory.wfFrom lo m = true) : Memory.get m a = 0 := by
  induction m generalizing lo with
  | nil => rfl
  | cons c m ih =>
    obtain ⟨k, w⟩ := c
    simp only [Memory.wfFrom, Bool.and_eq_true, decide_eq_true_eq] at h
    have hne : k ≠ a := by omega
    simp only [Memory.get, if_neg hne]
    exact ih (lo := k + 1) (by omega) h.2

/-- Two canonical memories with the same contents are the same list. -/
theorem Memory.eq_of_get_eq_from {m m' : Memory} {lo : Nat} (h : Memory.wfFrom lo m = true)
    (h' : Memory.wfFrom lo m' = true) (hget : ∀ a, Memory.get m a = Memory.get m' a) : m = m' := by
  induction m generalizing m' lo with
  | nil =>
    cases m' with
    | nil => rfl
    | cons c m' =>
      obtain ⟨k, w⟩ := c
      have := hget k
      simp only [Memory.wfFrom, Bool.and_eq_true, decide_eq_true_eq] at h'
      simp [Memory.get] at this
      exact absurd this.symm h'.1.2
  | cons c m ih =>
    obtain ⟨k, w⟩ := c
    simp only [Memory.wfFrom, Bool.and_eq_true, decide_eq_true_eq] at h
    cases m' with
    | nil =>
      have := hget k
      simp [Memory.get] at this
      exact absurd this h.1.2
    | cons c' m' =>
      obtain ⟨k', w'⟩ := c'
      simp only [Memory.wfFrom, Bool.and_eq_true, decide_eq_true_eq] at h'
      have hk : k = k' := by
        rcases Nat.lt_trichotomy k k' with hlt | heq | hgt
        · have := hget k
          have h0 : Memory.get m' k = 0 := Memory.get_of_lt_wfFrom (by omega) h'.2
          have hne : k' ≠ k := by omega
          simp [Memory.get, hne, h0] at this
          exact absurd this h.1.2
        · exact heq
        · have := hget k'
          have h0 : Memory.get m k' = 0 := Memory.get_of_lt_wfFrom (by omega) h.2
          have hne : k ≠ k' := by omega
          simp [Memory.get, hne, h0] at this
          exact absurd this.symm h'.1.2
      subst hk
      have hw : w = w' := by simpa [Memory.get] using hget k
      subst hw
      have : m = m' := by
        refine ih h.2 h'.2 fun a => ?_
        by_cases hka : k = a
        · subst hka
          rw [Memory.get_of_lt_wfFrom (Nat.lt_succ_self k) h.2, Memory.get_of_lt_wfFrom (Nat.lt_succ_self k) h'.2]
        · simpa [Memory.get, hka] using hget a
      rw [this]

theorem Memory.eq_of_get_eq {m m' : Memory} (h : Memory.wf m = true) (h' : Memory.wf m' = true)
    (hget : ∀ a, Memory.get m a = Memory.get m' a) : m = m' :=
  Memory.eq_of_get_eq_from h h' hget

end Sys2Proof.Machine
end

