-- ==== Sys2Proof/Laws/Flags.lean ====
section
/-!
SUPPORT. The laws of the W-bit range: what `wrap_W` gives lies in it, and memory operations keep every cell in it.
-/

namespace Sys2Proof.Machine

theorem fitsW_iff (w : Nat) (n : Int) : fitsW w n = true ↔ -2 ^ (w - 1) ≤ n ∧ n < 2 ^ (w - 1) := by
  simp [fitsW]

/-- The two halves of the range of W bits. -/
theorem two_pow_width {w : Nat} (hw : 1 ≤ w) : (2 : Int) ^ w = 2 * 2 ^ (w - 1) := by
  obtain ⟨v, rfl⟩ : ∃ v, w = v + 1 := ⟨w - 1, by omega⟩
  rw [Nat.add_sub_cancel, pow_succ]
  omega

theorem wrapW_eq {w : Nat} (hw : 1 ≤ w) (n : Int) :
    wrapW w n = if n % (2 * 2 ^ (w - 1)) < 2 ^ (w - 1) then n % (2 * 2 ^ (w - 1))
      else n % (2 * 2 ^ (w - 1)) - 2 * 2 ^ (w - 1) := by
  have h2 : ((2 ^ w : Nat) : Int) = 2 * 2 ^ (w - 1) := by
    rw [← two_pow_width hw]
    norm_cast
  have hh : (2 * (2 : Int) ^ (w - 1) + 1) / 2 = 2 ^ (w - 1) := by omega
  rw [wrapW, Int.bmod_def, h2, hh]

/-- What is stored is a W-bit value. -/
theorem fitsW_wrapW {w : Nat} (hw : 1 ≤ w) (n : Int) : fitsW w (wrapW w n) = true := by
  have hp : (0 : Int) < 2 ^ (w - 1) := by positivity
  have h1 := Int.emod_nonneg n (show (2 * 2 ^ (w - 1) : Int) ≠ 0 by omega)
  have h2 := Int.emod_lt_of_pos n (show (0 : Int) < 2 * 2 ^ (w - 1) by omega)
  rw [fitsW_iff, wrapW_eq hw]
  split <;> constructor <;> omega

/-- A W-bit value is stored as it is. -/
theorem wrapW_of_fitsW {w : Nat} (hw : 1 ≤ w) {n : Int} (h : fitsW w n = true) : wrapW w n = n := by
  rw [fitsW_iff] at h
  rw [wrapW_eq hw]
  by_cases hn : 0 ≤ n
  · rw [Int.emod_eq_of_lt hn (by omega), if_pos h.2]
  · have he : n % (2 * 2 ^ (w - 1)) = n + 2 * 2 ^ (w - 1) := by
      rw [← Int.add_emod_right, Int.emod_eq_of_lt (by omega) (by omega)]
    rw [he, if_neg (by omega), Int.add_sub_cancel]

theorem fitsW_zero (w : Nat) : fitsW w 0 = true := by
  rw [fitsW_iff]
  have hp : (0 : Int) < 2 ^ (w - 1) := by positivity
  omega

/-- A write of a W-bit value leaves every cell in the range. -/
theorem Memory.fits_put {w : Nat} {m : Memory} (a : Nat) {v : Cell} (hv : fitsW w v = true)
    (h : Memory.fits w m = true) : Memory.fits w (Memory.put m a v) = true := by
  simp only [Memory.fits, List.all_eq_true] at h ⊢
  intro c hc
  unfold Memory.put at hc
  split at hc
  · exact h c (List.mem_of_mem_filter hc)
  · rcases Memory.mem_insert hc with rfl | hc
    · exact hv
    · exact h c hc

/-- Every address reads as a W-bit value. -/
theorem Memory.fits_get {w : Nat} {m : Memory} (a : Nat) (h : Memory.fits w m = true) :
    fitsW w (Memory.get m a) = true := by
  induction m with
  | nil => exact fitsW_zero w
  | cons c m ih =>
    obtain ⟨k, x⟩ := c
    simp only [Memory.fits, List.all_cons, Bool.and_eq_true] at h
    unfold Memory.get
    split
    · exact h.1
    · exact ih h.2

@[simp] theorem narrow_loadClear (w : Nat) : Command.narrow w .loadClear = .loadClear := rfl
@[simp] theorem narrow_loadAppend (w : Nat) (v : Cell) :
    Command.narrow w (.loadAppend v) = .loadAppend (wrapW w v) := rfl
@[simp] theorem narrow_peek (w : Nat) (a : Cell) (m : Option AddressMode) :
    Command.narrow w (.peek a m) = .peek (wrapW w a) m := rfl
@[simp] theorem narrow_poke (w : Nat) (a v : Cell) (m : Option AddressMode) :
    Command.narrow w (.poke a v m) = .poke (wrapW w a) (wrapW w v) m := rfl
@[simp] theorem narrow_run (w : Nat) (b : Bool) : Command.narrow w (.run b) = .run b := rfl
@[simp] theorem narrow_status (w : Nat) : Command.narrow w .status = .status := rfl

end Sys2Proof.Machine
end

