-- ==== Sys2Proof/Laws/Ops.lean ====
section
/-!
SUPPORT. What each shared operation can do, once: the accesses, the resolver, the advance, the fetch.
-/

namespace Sys2Proof.Machine

/-! ## Access primitives -/

theorem validAddr_iff (a : Int) (s : State) : validAddr a s = true ↔ 0 ≤ a ∧ a < s.size := by
  simp [validAddr]

theorem validAddr_congr {a : Int} {s t : State} (h : t.size = s.size) : validAddr a t = validAddr a s := by
  simp [validAddr, h]

/-- What a cell holds depends on SIZE and MEM alone. -/
theorem cellAt_congr {s t : State} (hs : t.size = s.size) (hm : t.mem = s.mem) (a : Int) :
    cellAt a t = cellAt a s := by
  simp [cellAt, validAddr, hs, hm]

theorem cellAt_of_valid {a : Int} {s : State} (h : validAddr a s = true) :
    cellAt a s = some (Memory.get s.mem a.toNat) := by
  simp [cellAt, h]

theorem cellAt_eq_some {a : Int} {s : State} {v : Cell} :
    cellAt a s = some v ↔ validAddr a s = true ∧ Memory.get s.mem a.toNat = v := by
  unfold cellAt
  split <;> simp_all

theorem cellAt_eq_none {a : Int} {s : State} : cellAt a s = none ↔ validAddr a s = false := by
  unfold cellAt
  split <;> simp_all

theorem cellAt_natCast (n : Nat) (s : State) :
    cellAt n s = if n < s.size then some (Memory.get s.mem n) else none := by
  simp [cellAt, validAddr]

theorem memRead_eq_ok {a : Int} {s : State} {v : Cell} : memRead a s = .ok v ↔ cellAt a s = some v := by
  unfold memRead
  split <;> simp_all

theorem memRead_eq_error {a : Int} {s : State} {bad : BadAccess} :
    memRead a s = .error bad ↔ cellAt a s = none ∧ bad = { addr := a, access := .read } := by
  unfold memRead
  cases cellAt a s
  · simpa using eq_comm
  · simp

theorem memWrite_eq_ok {a : Int} {v : Cell} {s t : State} :
    memWrite a v s = .ok t ↔ validAddr a s = true ∧ t = { s with mem := Memory.put s.mem a.toNat v } := by
  unfold memWrite
  cases validAddr a s
  · simp
  · simpa using eq_comm

theorem memWrite_eq_error {a : Int} {v : Cell} {s : State} {bad : BadAccess} :
    memWrite a v s = .error bad ↔ validAddr a s = false ∧ bad = { addr := a, access := .write } := by
  unfold memWrite
  cases validAddr a s
  · simpa using eq_comm
  · simp

/-- A successful MemWrite changes cell a only, and that cell reads as written (20_memory.md R32). -/
theorem memWrite_cellAt {a : Int} {v : Cell} {s t : State} (h : memWrite a v s = .ok t) (b : Int) :
    cellAt b t = if b = a then some v else cellAt b s := by
  obtain ⟨hv, rfl⟩ := memWrite_eq_ok.mp h
  by_cases hb : b = a
  · subst hb
    rw [if_pos rfl, cellAt_eq_some]
    exact ⟨hv, Memory.get_put_same _ _ _⟩
  · rw [if_neg hb]
    unfold cellAt
    by_cases hvb : validAddr b s = true
    · have hne : b.toNat ≠ a.toNat := by
        rw [validAddr_iff] at hv hvb
        omega
      have hvb' : validAddr b { s with mem := Memory.put s.mem a.toNat v } = true := hvb
      simp only [hvb, hvb', if_true, Memory.get_put_other _ _ hne]
    · have hvb' : ¬ validAddr b { s with mem := Memory.put s.mem a.toNat v } = true := hvb
      simp [hvb, hvb']

/-! ## The resolver -/

theorem readThrough_immediate (raw : Except BadAccess Cell) (s : State) :
    readThrough raw .immediate s = raw := rfl

theorem readThrough_position (raw : Except BadAccess Cell) (s : State) :
    readThrough raw .position s = raw.bind fun a => memRead a s := rfl

theorem readThrough_display (raw : Except BadAccess Cell) (s : State) :
    readThrough raw .display s = readThrough raw .position s := rfl

theorem writeThrough_display (c : Int) (raw : Except BadAccess Cell) :
    writeThrough c raw .display = writeThrough c raw .position := rfl

/-- An access turned away by the resolver is a read of an address outside memory: of the operand cell or of the address
it holds (20_memory.md R44). -/
theorem resolveRead_error {c : Int} {m : AddressMode} {s : State} {bad : BadAccess}
    (h : resolveRead c m s = .error bad) :
    bad.access = .read ∧ validAddr bad.addr s = false ∧
      (bad.addr = c ∨ ∃ v, cellAt c s = some v ∧ bad.addr = v) := by
  have hdir : memRead c s = .error bad → bad.access = .read ∧ validAddr bad.addr s = false ∧
      (bad.addr = c ∨ ∃ v, cellAt c s = some v ∧ bad.addr = v) := fun he => by
    obtain ⟨hn, rfl⟩ := memRead_eq_error.mp he
    exact ⟨rfl, cellAt_eq_none.mp hn, .inl rfl⟩
  have hpos : readThrough (memRead c s) .position s = .error bad → bad.access = .read ∧
      validAddr bad.addr s = false ∧ (bad.addr = c ∨ ∃ v, cellAt c s = some v ∧ bad.addr = v) := fun he => by
    rw [readThrough_position] at he
    cases hr : memRead c s with
    | error e =>
      rw [hr] at he
      exact hdir (by rw [hr]; exact he)
    | ok v =>
      rw [hr] at he
      obtain ⟨hn, rfl⟩ := memRead_eq_error.mp he
      exact ⟨rfl, cellAt_eq_none.mp hn, .inr ⟨v, memRead_eq_ok.mp hr, rfl⟩⟩
  cases m with
  | immediate => exact hdir h
  | position => exact hpos h
  | display => exact hpos h

theorem resolveWrite_error {c : Int} {m : AddressMode} {s : State} {bad : BadAccess}
    (h : resolveWrite c m s = .error bad) : memRead c s = .error bad := by
  cases m <;> simp only [resolveWrite, writeThrough] at h
  · exact h
  · cases h
  · exact h

/-! ## The advance -/

/-- The two ends of an advance (42_controller.md R79). -/
theorem advance_cases (s : State) :
    (s.ip + 4 < s.size ∧ advance s = { s with ip := s.ip + 4 }) ∨
    (s.size ≤ s.ip + 4 ∧ advance s = raise .missingHalt { s with ip := s.ip + 4 }) := by
  unfold advance
  by_cases h : s.size ≤ s.ip + 4
  · exact .inr ⟨h, if_pos h⟩
  · exact .inl ⟨by omega, if_neg h⟩

@[simp] theorem advance_ip (s : State) : (advance s).ip = s.ip + 4 := by
  unfold advance; split <;> rfl
@[simp] theorem advance_size (s : State) : (advance s).size = s.size := by
  unfold advance; split <;> rfl
@[simp] theorem advance_mem (s : State) : (advance s).mem = s.mem := by
  unfold advance; split <;> rfl
@[simp] theorem advance_traceEn (s : State) : (advance s).traceEn = s.traceEn := by
  unfold advance; split <;> rfl
@[simp] theorem advance_params (s : State) : (advance s).params = s.params := by
  unfold advance; split <;> rfl
@[simp] theorem advance_inputs (s : State) : (advance s).inputs = s.inputs := by
  unfold advance; split <;> rfl
@[simp] theorem advance_cmdOutstanding (s : State) : (advance s).cmdOutstanding = s.cmdOutstanding := by
  unfold advance; split <;> rfl
@[simp] theorem advance_trace (s : State) : (advance s).trace = s.trace := by
  unfold advance; split <;> rfl
@[simp] theorem advance_freeCount (s : State) : (advance s).freeCount = s.freeCount := by
  unfold advance; split <;> rfl

/-! ## The fetch -/

/-- The fetch sees the cells of memory from ip on, at most four (20_memory.md R49). -/
theorem fetchCells_get (s : State) (k : Nat) :
    (fetchCells s)[k]? = if k < 4 then cellAt (s.ip + k : Nat) s else none := by
  rw [cellAt_natCast]
  unfold fetchCells
  by_cases hk : k < min 4 (s.size - s.ip)
  · rw [List.getElem?_map, List.getElem?_range hk, if_pos (by omega), if_pos (by omega)]
    rfl
  · rw [List.getElem?_eq_none (by rw [List.length_map, List.length_range]; omega)]
    by_cases h4 : k < 4
    · rw [if_pos h4, if_neg (by omega)]
    · rw [if_neg h4]

theorem fetchCells_length (s : State) : (fetchCells s).length = min 4 (s.size - s.ip) := by
  simp [fetchCells]

end Sys2Proof.Machine
end

