-- ==== Sys2Proof/Laws/Operands.lean ====
section
/-!
SUPPORT. What the sequence of ADD and MUL can do, once: every end of it, and what it keeps.
-/

namespace Sys2Proof.Machine

/-- The decoder's view of an operand cell and MemRead of that cell agree. -/
theorem operandCell_cellAt (c : Int) (s : State) : operandCell c (cellAt c s) = memRead c s := by
  unfold operandCell memRead
  split <;> simp_all

/-- The ends of the sequence once the operands are resolved (40_arithmetic.md R64). -/
theorem op3Finish_cases (n dst : Int) (s : State) :
    (fitsW s.params.width n = false ∧ s.params.overflowMode = .fault ∧ op3Finish n dst s = raise .overflow s) ∨
    ((fitsW s.params.width n = true ∨ s.params.overflowMode = .wrap) ∧
      ((validAddr dst s = false ∧
          op3Finish n dst s = raise (.outOfRange { addr := dst, access := .write }) s) ∨
        (validAddr dst s = true ∧
          op3Finish n dst s = advance { s with mem := Memory.put s.mem dst.toNat (wrapW s.params.width n) }))) := by
  have hmode : s.params.overflowMode = .wrap ∨ s.params.overflowMode = .fault := by
    cases s.params.overflowMode <;> simp
  unfold op3Finish
  by_cases hov : fitsW s.params.width n = false ∧ s.params.overflowMode = .fault
  · exact .inl ⟨hov.1, hov.2, by simp [hov.1, hov.2]⟩
  · refine .inr ⟨?_, ?_⟩
    · rcases hmode with h | h
      · exact .inr h
      · exact .inl (by simpa using fun hf => hov ⟨hf, h⟩)
    · have hcond : (!fitsW s.params.width n && decide (s.params.overflowMode = .fault)) = false := by
        by_contra hc
        apply hov
        simpa using hc
      simp only [hcond, Bool.false_eq_true, if_false]
      cases hv : validAddr dst s
      · exact .inl ⟨rfl, by simp [memWrite, hv]⟩
      · exact .inr ⟨rfl, by simp [memWrite, hv]⟩

theorem op3Finish_overflow {n dst : Int} {s : State} (hf : fitsW s.params.width n = false) (hm : s.params.overflowMode = .fault) :
    op3Finish n dst s = raise .overflow s := by
  simp [op3Finish, hf, hm]

theorem op3Finish_bad {n dst : Int} {s : State} (hf : fitsW s.params.width n = true ∨ s.params.overflowMode = .wrap)
    (hv : validAddr dst s = false) : op3Finish n dst s = raise (.outOfRange { addr := dst, access := .write }) s := by
  rcases op3Finish_cases n dst s with ⟨h1, h2, -⟩ | ⟨-, ⟨-, h⟩ | ⟨hv', -⟩⟩
  · rcases hf with hf | hf
    · rw [h1] at hf; cases hf
    · rw [h2] at hf; cases hf
  · exact h
  · rw [hv] at hv'; cases hv'

theorem op3Finish_store {n dst : Int} {s : State} (hf : fitsW s.params.width n = true ∨ s.params.overflowMode = .wrap)
    (hv : validAddr dst s = true) :
    op3Finish n dst s = advance { s with mem := Memory.put s.mem dst.toNat (wrapW s.params.width n) } := by
  rcases op3Finish_cases n dst s with ⟨h1, h2, -⟩ | ⟨-, ⟨hv', -⟩ | ⟨-, h⟩⟩
  · rcases hf with hf | hf
    · rw [h1] at hf; cases hf
    · rw [h2] at hf; cases hf
  · rw [hv] at hv'; cases hv'
  · exact h

/-- The ends of the whole sequence: an access of the resolutions fails, or they succeed and the sequence finishes from
the traced state. -/
theorem op3Execute_cases (name : TraceName) (f : Int → Int → Int) (ms : OperandModes) (p1 p2 p3 : Option Cell)
    (s : State) :
    (∃ bad, resolveOperands ms p1 p2 p3 s = .error bad ∧
      op3Execute name f ms p1 p2 p3 s = raise (.outOfRange bad) s) ∨
    (∃ o, resolveOperands ms p1 p2 p3 s = .ok o ∧
      op3Execute name f ms p1 p2 p3 s =
        op3Finish (f o.v1 o.v2) o.dst (emitTrace (op3Record name ms p1 p2 p3 o s.ip) s)) := by
  cases h : resolveOperands ms p1 p2 p3 s with
  | error bad => exact .inl ⟨bad, rfl, by simp [op3Execute, h]⟩
  | ok o => exact .inr ⟨o, rfl, by simp [op3Execute, h]⟩

theorem op3Finish_keeps (n dst : Int) (s : State) :
    (op3Finish n dst s).size = s.size ∧ (op3Finish n dst s).traceEn = s.traceEn ∧
    (op3Finish n dst s).params = s.params ∧ (op3Finish n dst s).inputs = s.inputs ∧
    (op3Finish n dst s).freeCount = s.freeCount ∧ (op3Finish n dst s).trace = s.trace ∧
    (op3Finish n dst s).cmdOutstanding = s.cmdOutstanding := by
  rcases op3Finish_cases n dst s with ⟨-, -, h⟩ | ⟨-, ⟨-, h⟩ | ⟨-, h⟩⟩ <;> simp [h]

/-- What the sequence never touches: SIZE, TRACE_EN, the parameters, the host's plans, the model's counter, the command
channel. -/
theorem op3Execute_keeps (name : TraceName) (f : Int → Int → Int) (ms : OperandModes) (p1 p2 p3 : Option Cell)
    (s : State) :
    (op3Execute name f ms p1 p2 p3 s).size = s.size ∧ (op3Execute name f ms p1 p2 p3 s).traceEn = s.traceEn ∧
    (op3Execute name f ms p1 p2 p3 s).params = s.params ∧ (op3Execute name f ms p1 p2 p3 s).inputs = s.inputs ∧
    (op3Execute name f ms p1 p2 p3 s).freeCount = s.freeCount ∧
    (op3Execute name f ms p1 p2 p3 s).cmdOutstanding = s.cmdOutstanding := by
  rcases op3Execute_cases name f ms p1 p2 p3 s with ⟨bad, -, h⟩ | ⟨o, -, h⟩
  · simp [h]
  · rw [h]
    have hk := op3Finish_keeps (f o.v1 o.v2) o.dst (emitTrace (op3Record name ms p1 p2 p3 o s.ip) s)
    simp only [emitTrace_size, emitTrace_traceEn, emitTrace_params, emitTrace_inputs, emitTrace_freeCount,
      emitTrace_cmdOutstanding] at hk
    exact ⟨hk.1, hk.2.1, hk.2.2.1, hk.2.2.2.1, hk.2.2.2.2.1, hk.2.2.2.2.2.2⟩

/-- Every end of the sequence of ADD and MUL: an access of the resolutions fails; the result overflows in Fault mode; the
destination is no cell; or the result is stored and ip advances. -/
theorem op3Execute_ends (name : TraceName) (f : Int → Int → Int) (ms : OperandModes) (p1 p2 p3 : Option Cell)
    (s : State) :
    (∃ bad, resolveOperands ms p1 p2 p3 s = .error bad ∧
      op3Execute name f ms p1 p2 p3 s = raise (.outOfRange bad) s) ∨
    (∃ o, resolveOperands ms p1 p2 p3 s = .ok o ∧
      ((s.params.overflowMode = .fault ∧ fitsW s.params.width (f o.v1 o.v2) = false ∧
          op3Execute name f ms p1 p2 p3 s = raise .overflow (emitTrace (op3Record name ms p1 p2 p3 o s.ip) s)) ∨
        (validAddr o.dst s = false ∧
          op3Execute name f ms p1 p2 p3 s = raise (.outOfRange { addr := o.dst, access := .write })
            (emitTrace (op3Record name ms p1 p2 p3 o s.ip) s)) ∨
        (validAddr o.dst s = true ∧
          op3Execute name f ms p1 p2 p3 s = advance { emitTrace (op3Record name ms p1 p2 p3 o s.ip) s with
            mem := Memory.put s.mem o.dst.toNat (wrapW s.params.width (f o.v1 o.v2)) }))) := by
  rcases op3Execute_cases name f ms p1 p2 p3 s with ⟨bad, hr, e⟩ | ⟨o, hr, e⟩
  · exact .inl ⟨bad, hr, e⟩
  · refine .inr ⟨o, hr, ?_⟩
    rw [e]
    rcases op3Finish_cases (f o.v1 o.v2) o.dst (emitTrace (op3Record name ms p1 p2 p3 o s.ip) s) with
      ⟨h1, h2, h⟩ | ⟨-, ⟨hv, h⟩ | ⟨hv, h⟩⟩
    · exact .inl ⟨h2, h1, h⟩
    · exact .inr (.inl ⟨hv, h⟩)
    · exact .inr (.inr ⟨hv, h⟩)

theorem advance_cellAt (a : Int) (s : State) : cellAt a (advance s) = cellAt a s :=
  cellAt_congr (advance_size s) (advance_mem s) a

/-- The cells after a result is stored and ip advances. -/
theorem stored_cellAt {s : State} {r : TraceRecord} {dst : Int} (v : Cell) (hd : validAddr dst s = true) (a : Int) :
    cellAt a (advance { emitTrace r s with mem := Memory.put s.mem dst.toNat v }) =
      if a = dst then some v else cellAt a s := by
  rw [advance_cellAt]
  have hw : memWrite dst v (emitTrace r s) = .ok { emitTrace r s with mem := Memory.put s.mem dst.toNat v } :=
    memWrite_eq_ok.2 ⟨by rwa [validAddr_congr (emitTrace_size _ _)], rfl⟩
  have hx := memWrite_cellAt hw a
  rw [cellAt_congr (s := s) (t := emitTrace r s) rfl rfl] at hx
  exact hx

/-- The resolutions on the fetched operands are the resolver's on the operand cells' addresses (40_arithmetic.md R64,
20_memory.md R40 to R43). -/
theorem resolveOperands_fetched (ms : OperandModes) (s : State) :
    resolveOperands ms (cellAt (s.ip + 1) s) (cellAt (s.ip + 2) s) (cellAt (s.ip + 3) s) s =
      (resolveRead (s.ip + 1) ms.m1 s).bind fun v1 =>
      (resolveRead (s.ip + 2) ms.m2 s).bind fun v2 =>
      (resolveWrite (s.ip + 3) ms.m3 s).bind fun dst =>
      .ok { v1 := v1, v2 := v2, dst := dst } := by
  simp only [resolveOperands, resolveRead, resolveWrite, operandCell_cellAt]

end Sys2Proof.Machine
end

