-- ==== Sys2Proof/Laws/PerInstr.lean ====
section
/-!
SUPPORT. Statements about every instruction as syntax, one lemma for each constructor.
-/

namespace Sys2Proof

/-- The operand cells that exist are three at most, and three when all of them exist. -/
theorem operandCells_length (p1 p2 p3 : Option Cell) :
    (operandCells p1 p2 p3).length ≤ 3 ∧
    ((p1.isSome && p2.isSome && p3.isSome) = true → (operandCells p1 p2 p3).length = 3) := by
  cases p1 <;> cases p2 <;> cases p3 <;> simp [operandCells]

end Sys2Proof

/-- What the encoding of an instruction is made of: it begins with the opcode cell of that instruction; it is never
longer than the opcode says, and as long when all its cells exist (30_encoding.md R54 to R57, R61). -/
def Sys2Proof.Laws.EncodedForm.Statement (i : Sys2Proof.Instr) : Prop :=
  (Sys2Proof.encode i).head? = some i.opcode ∧
  (Sys2Proof.encode i).length ≤ i.length ∧
  (Sys2Proof.Whole i → (Sys2Proof.encode i).length = i.length)

theorem Sys2Proof.Laws.EncodedForm.add (p1 p2 p3 : Option Sys2Proof.Cell) :
    Sys2Proof.Laws.EncodedForm.Statement (.add p1 p2 p3) :=
  ⟨rfl, Nat.succ_le_succ (Sys2Proof.operandCells_length p1 p2 p3).1,
    fun h => congrArg Nat.succ ((Sys2Proof.operandCells_length p1 p2 p3).2 h)⟩

theorem Sys2Proof.Laws.EncodedForm.mul (p1 p2 p3 : Option Sys2Proof.Cell) :
    Sys2Proof.Laws.EncodedForm.Statement (.mul p1 p2 p3) :=
  ⟨rfl, Nat.succ_le_succ (Sys2Proof.operandCells_length p1 p2 p3).1,
    fun h => congrArg Nat.succ ((Sys2Proof.operandCells_length p1 p2 p3).2 h)⟩

theorem Sys2Proof.Laws.EncodedForm.halt : Sys2Proof.Laws.EncodedForm.Statement .halt :=
  ⟨rfl, Nat.le_refl 1, fun _ => rfl⟩
end

