-- ==== Sys2Proof/Laws/Step.lean ====
section
/-!
SUPPORT. What the instructions, the host's commands and the step can do, once.
-/

namespace Sys2Proof.Machine

/-! ## The instructions -/

theorem exec_add (p1 p2 p3 : Option Cell) (s : State) :
    exec (.add p1 p2 p3) s = .next (op3Execute .add (fun a b => a + b) s.params.addModes p1 p2 p3 s) := rfl

theorem exec_mul (p1 p2 p3 : Option Cell) (s : State) :
    exec (.mul p1 p2 p3) s = .next (op3Execute .multiply (fun a b => a * b) s.params.mulModes p1 p2 p3 s) := rfl

theorem exec_halt (s : State) :
    exec .halt s = .next (haltRun (emitTrace { name := .halt, ip := s.ip, operands := [] } s)) := rfl

/-- The sequence of ADD and MUL once the operands resolve, the destination is a cell and the result is stored. -/
theorem op3Execute_stored {name : TraceName} {f : Int → Int → Int} {ms : OperandModes} {p1 p2 p3 : Option Cell}
    {s : State} {o : Op3Operands} (hr : resolveOperands ms p1 p2 p3 s = .ok o) (hd : validAddr o.dst s = true)
    (hf : fitsW s.params.width (f o.v1 o.v2) = true ∨ s.params.overflowMode = .wrap) :
    op3Execute name f ms p1 p2 p3 s =
      advance { emitTrace (op3Record name ms p1 p2 p3 o s.ip) s with
        mem := Memory.put s.mem o.dst.toNat (wrapW s.params.width (f o.v1 o.v2)) } := by
  simp only [op3Execute, hr]
  exact op3Finish_store hf (by rwa [validAddr_congr (emitTrace_size _ _)])

/-! ## The step -/

theorem step_of_no_input {s : State} (h : s.inputs = []) : step s = runCore s.countStep := by
  simp [step, h]

theorem step_of_input {s : State} {i : Input} {rest : List Input} (h : s.inputs = i :: rest) :
    step s = serveInput i { s.countStep with inputs := rest } := by
  simp [step, h]

theorem runCore_running {s : State} (h : s.ctl = .running) : runCore s = cycle s := by
  simp [runCore, h]

theorem runCore_idle {s : State} (h : s.ctl ≠ .running) : runCore s = .next s := by
  unfold runCore
  split <;> simp_all

/-- The step of a run that the host leaves alone is one cycle, and it is counted. -/
theorem step_cycle {s : State} (hc : s.ctl = .running) (hi : s.inputs = []) :
    step s = cycle { s with freeCount := s.freeCount + 1 } := by
  rw [step_of_no_input hi, countStep_running hc, runCore_running (by exact hc)]

/-- Outside a run nothing happens while the host does nothing. -/
theorem step_rest {s : State} (hc : s.ctl ≠ .running) (hi : s.inputs = []) : step s = .next s := by
  rw [step_of_no_input hi, countStep_idle hc, runCore_idle hc]

/-- Every end of a cycle: an instruction, an unknown opcode, or no cell at ip. -/
theorem cycle_cases (s : State) :
    (∃ i, decode (fetchCells s) = .ok i ∧ cycle s = exec i s) ∨
    (∃ op, decode (fetchCells s) = .error (.unknownOpcode op) ∧
      cycle s = .next (raise (.unknownOpcode op) s)) ∨
    (decode (fetchCells s) = .error .noOpcodeCell ∧
      cycle s = .next (raise (.outOfRange { addr := s.ip, access := .read }) s)) := by
  unfold cycle
  rcases hd : decode (fetchCells s) with (_ | _) | _
  · exact .inr (.inl ⟨_, rfl, rfl⟩)
  · exact .inr (.inr ⟨rfl, rfl⟩)
  · exact .inl ⟨_, rfl, rfl⟩

/-- The first fetched cell is the one at ip. -/
theorem fetchCells_head (s : State) : (fetchCells s)[0]? = cellAt s.ip s := by
  rw [fetchCells_get]
  simp

/-- What the cycle decodes from the opcode cell at ip, with the operand cells that exist after it. -/
theorem fetchCells_of_cellAt {s : State} {op : Cell} (h : cellAt s.ip s = some op) :
    ∃ ps, fetchCells s = op :: ps ∧ ps[0]? = cellAt (s.ip + 1) s ∧ ps[1]? = cellAt (s.ip + 2) s ∧
      ps[2]? = cellAt (s.ip + 3) s := by
  have h0 := fetchCells_head s
  rw [h] at h0
  have h1 := fetchCells_get s 1
  have h2 := fetchCells_get s 2
  have h3 := fetchCells_get s 3
  cases hc : fetchCells s with
  | nil => rw [hc] at h0; cases h0
  | cons c ps =>
    rw [hc] at h0 h1 h2 h3
    simp only [List.getElem?_cons_zero, Option.some.injEq] at h0
    refine ⟨ps, by rw [h0], ?_, ?_, ?_⟩
    · simpa using h1
    · simpa using h2
    · simpa using h3

theorem fetchCells_of_no_cell {s : State} (h : cellAt s.ip s = none) : fetchCells s = [] := by
  have h0 := fetchCells_head s
  rw [h] at h0
  cases hc : fetchCells s with
  | nil => rfl
  | cons c ps => rw [hc] at h0; cases h0

/-! ## The host's commands -/

theorem serve_running {s : State} (h : s.ctl = .running) (c : Command) : serve c s = serveRunning c s := by
  simp [serve, h]

theorem serve_idle {s : State} (h : s.ctl ≠ .running) (c : Command) : serve c s = serveIdle (c.narrow s.params.width) s := by
  unfold serve
  split <;> simp_all

theorem step_command {s : State} {c : Command} {rest : List Input} (h : s.inputs = .command c :: rest) :
    step s = .next (serve c { s.countStep with inputs := rest }) :=
  step_of_input h

/-- A command outside a run, with its arguments as W-bit values. -/
theorem step_command_idle {s : State} {c : Command} {rest : List Input} (hc : s.ctl ≠ .running)
    (h : s.inputs = .command c :: rest) :
    step s = .next (serveIdle (c.narrow s.params.width) { s with inputs := rest }) := by
  rw [step_command h, countStep_idle hc, serve_idle (by exact hc)]

/-- A command in a run. -/
theorem step_command_running {s : State} {c : Command} {rest : List Input} (hc : s.ctl = .running)
    (h : s.inputs = .command c :: rest) :
    step s = .next (serveRunning c { s with inputs := rest, freeCount := s.freeCount + 1 }) := by
  rw [step_command h, countStep_running hc, serve_running (by exact hc)]

theorem status_idle {s : State} (h : s.ctl ≠ .running) : status s = respond (.okStatus s.ctl (statusRest s)) s := by
  unfold status
  split <;> simp_all

theorem peek_cases (a : Cell) (m : Option AddressMode) (s : State) : ∃ r, peek a m s = respond r s := by
  unfold peek respondOutOfRange
  split
  · exact ⟨_, rfl⟩
  · exact ⟨_, rfl⟩

/-- POKE answers OutOfRange and changes nothing, or writes one existing cell. -/
theorem poke_cases (a v : Cell) (m : Option AddressMode) (s : State) :
    (∃ c, poke a v m s = respond (.outOfRange c) s) ∨
    (∃ dst, validAddr dst s = true ∧
      poke a v m s = respond .ok { s with mem := Memory.put s.mem dst.toNat v }) := by
  unfold poke respondOutOfRange
  cases hw : resolveWrite a (hostMode m s) s with
  | error bad => exact .inl ⟨_, rfl⟩
  | ok dst =>
    cases hv : validAddr dst s
    · left; exact ⟨dst, by simp [Except.bind, memWrite, hv]⟩
    · right; exact ⟨dst, hv, by simp [Except.bind, memWrite, hv]⟩

/-- LOAD_APPEND only answers, or appends one cell below MEM_CAP in Ready. -/
theorem loadAppend_cases (v : Cell) (s : State) :
    (∃ r, loadAppend v s = respond r s ∧ (r = .loadTooLarge ∨ r = .busy ∨ r = .notLoading)) ∨
    (s.ctl = .ready ∧ s.size ≠ s.params.memCap ∧
      loadAppend v s = respond .ok { s with mem := Memory.put s.mem s.size v, size := s.size + 1 }) := by
  unfold loadAppend
  cases hc : s.ctl
  · by_cases hs : s.size = s.params.memCap
    · exact .inl ⟨_, by simp [hs], .inl rfl⟩
    · exact .inr ⟨rfl, hs, by simp [hs]⟩
  · exact .inl ⟨_, rfl, .inr (.inl rfl)⟩
  · exact .inl ⟨_, rfl, .inr (.inr rfl)⟩
  · exact .inl ⟨_, rfl, .inr (.inr rfl)⟩

/-- RUN only answers, fails with EmptyProgram, or starts the run. -/
theorem startRun_cases (b : Bool) (s : State) :
    (s.ctl ≠ .ready ∧ ∃ r, startRun b s = respond r s ∧ (r = .busy ∨ r = .runRejected)) ∨
    (s.ctl = .ready ∧ s.size = 0 ∧ startRun b s = raise .emptyProgram { s with traceEn := b, ip := 0 }) ∨
    (s.ctl = .ready ∧ 0 < s.size ∧
      startRun b s = { s with traceEn := b, fail := FailRecord.clear, ip := 0, ctl := .running }) := by
  unfold startRun
  cases hc : s.ctl
  · by_cases hs : s.size = 0
    · exact .inr (.inl ⟨rfl, hs, by simp [hs]⟩)
    · exact .inr (.inr ⟨rfl, by omega, by simp [hs]⟩)
  · exact .inl ⟨by simp, _, rfl, .inl rfl⟩
  · exact .inl ⟨by simp, _, rfl, .inr rfl⟩
  · exact .inl ⟨by simp, _, rfl, .inr rfl⟩

theorem serveUnassigned_cases (s : State) : ∃ r, serveUnassigned s = respond r s ∧ (r = .busy ∨ r = .runRejected) := by
  unfold serveUnassigned
  split
  · exact ⟨_, rfl, .inl rfl⟩
  · exact ⟨_, rfl, .inr rfl⟩
  · exact ⟨_, rfl, .inr rfl⟩
  · exact ⟨_, rfl, .inr rfl⟩

/-- Everything a command can do during a run: one answer. -/
theorem serveRunning_cases (c : Command) (s : State) (h : s.ctl = .running) :
    serveRunning c s = respond .busy s ∨
    serveRunning c s = respond (.okStatus .running (Config.freeStatus s.freeCount)) s := by
  cases c
  case status => right; simp [serveRunning, status, h]
  all_goals left; rfl

/-! ## Everything a cycle and a step can do -/

theorem cycle_of_decode {s : State} {i : Instr} (h : decode (fetchCells s) = .ok i) : cycle s = exec i s := by
  simp [cycle, h]

theorem decode_at_add {s : State} (h : cellAt s.ip s = some 1) :
    decode (fetchCells s) = .ok (.add (cellAt (s.ip + 1) s) (cellAt (s.ip + 2) s) (cellAt (s.ip + 3) s)) := by
  obtain ⟨ps, hf, h1, h2, h3⟩ := fetchCells_of_cellAt h
  rw [hf, decode_add, h1, h2, h3]

theorem decode_at_mul {s : State} (h : cellAt s.ip s = some 2) :
    decode (fetchCells s) = .ok (.mul (cellAt (s.ip + 1) s) (cellAt (s.ip + 2) s) (cellAt (s.ip + 3) s)) := by
  obtain ⟨ps, hf, h1, h2, h3⟩ := fetchCells_of_cellAt h
  rw [hf, decode_mul, h1, h2, h3]

theorem decode_at_halt {s : State} (h : cellAt s.ip s = some 99) : decode (fetchCells s) = .ok .halt := by
  obtain ⟨ps, hf, -⟩ := fetchCells_of_cellAt h
  rw [hf, decode_halt]

theorem decode_at_unknown {s : State} {op : Cell} (h : cellAt s.ip s = some op) (h1 : op ≠ 1) (h2 : op ≠ 2)
    (h99 : op ≠ 99) : decode (fetchCells s) = .error (.unknownOpcode op) := by
  obtain ⟨ps, hf, -⟩ := fetchCells_of_cellAt h
  rw [hf, decode_unknown _ h1 h2 h99]

/-- A cycle, by the opcode cell it fetches. -/
theorem cycle_by_opcode (s : State) :
    (cellAt s.ip s = some 1 ∧ cycle s = .next (op3Execute .add (fun a b => a + b) s.params.addModes
      (cellAt (s.ip + 1) s) (cellAt (s.ip + 2) s) (cellAt (s.ip + 3) s) s)) ∨
    (cellAt s.ip s = some 2 ∧ cycle s = .next (op3Execute .multiply (fun a b => a * b) s.params.mulModes
      (cellAt (s.ip + 1) s) (cellAt (s.ip + 2) s) (cellAt (s.ip + 3) s) s)) ∨
    (cellAt s.ip s = some 99 ∧
      cycle s = .next (haltRun (emitTrace { name := .halt, ip := s.ip, operands := [] } s))) ∨
    (∃ op, cellAt s.ip s = some op ∧ op ≠ 1 ∧ op ≠ 2 ∧ op ≠ 99 ∧
      cycle s = .next (raise (.unknownOpcode op) s)) ∨
    (cellAt s.ip s = none ∧ cycle s = .next (raise (.outOfRange { addr := s.ip, access := .read }) s)) := by
  cases hop : cellAt s.ip s with
  | none =>
    have hd : decode (fetchCells s) = .error .noOpcodeCell := by rw [fetchCells_of_no_cell hop]; rfl
    exact .inr (.inr (.inr (.inr ⟨rfl, by simp [cycle, hd]⟩)))
  | some op =>
    by_cases h1 : op = 1
    · subst h1
      exact .inl ⟨rfl, by rw [cycle_of_decode (decode_at_add hop), exec_add]⟩
    · by_cases h2 : op = 2
      · subst h2
        exact .inr (.inl ⟨rfl, by rw [cycle_of_decode (decode_at_mul hop), exec_mul]⟩)
      · by_cases h99 : op = 99
        · subst h99
          exact .inr (.inr (.inl ⟨rfl, by rw [cycle_of_decode (decode_at_halt hop), exec_halt]⟩))
        · refine .inr (.inr (.inr (.inl ⟨op, rfl, h1, h2, h99, ?_⟩)))
          simp [cycle, decode_at_unknown hop h1 h2 h99]

theorem afterInput_of_no_input {s : State} (h : s.inputs = []) : s.afterInput = s.countStep := by
  cases s
  simp_all [State.afterInput, State.countStep]

theorem afterInput_of_input {s : State} {i : Input} {rest : List Input} (h : s.inputs = i :: rest) :
    s.afterInput = { s.countStep with inputs := rest } := by
  simp [State.afterInput, h]

theorem servePort_cases (p : CommandPort) (s : State) :
    (∃ c, portCommand p = some c ∧ servePort p s = serve c s) ∨
    (portCommand p = none ∧ ∃ r, servePort p s = respond r s) := by
  unfold servePort
  cases h : portCommand p with
  | some c => exact .inl ⟨c, rfl, rfl⟩
  | none =>
    obtain ⟨r, e, -⟩ := serveUnassigned_cases s
    exact .inr ⟨rfl, r, e⟩

/-- A command offered at the port is not taken, or served as the signals name it, and then outstanding. -/
theorem offerPort_cases (p : CommandPort) (s : State) :
    (s.cmdOutstanding = true ∧ offerPort p s = s) ∨
    (s.cmdOutstanding = false ∧ offerPort p s = { servePort p s with cmdOutstanding := true }) := by
  unfold offerPort
  cases s.cmdOutstanding <;> simp

/-- Everything a step can do: a cycle, nothing, reset, a command, an unassigned command, or the host takes something. -/
theorem step_cases {s t : State} (h : step s = .next t) :
    (cycleDue s ∧ cycle s.afterInput = .next t) ∨
    (¬ cycleDue s ∧ commandTaken s = none ∧ t = s.afterInput) ∨
    (s.inputs.head? = some .rst ∧ t = assertReset s.afterInput) ∨
    (∃ c out, commandTaken s = some c ∧ ¬ cycleDue s ∧ t = { serve c s.afterInput with cmdOutstanding := out }) ∨
    (commandTaken s = none ∧ ¬ cycleDue s ∧ ∃ r, t = { respond r s.afterInput with cmdOutstanding := true }) ∨
    (commandTaken s = none ∧ ¬ cycleDue s ∧ (t = takeResponse s.afterInput ∨ t = takeTrace s.afterInput)) := by
  cases hi : s.inputs with
  | nil =>
    rw [step_of_no_input hi, ← afterInput_of_no_input hi] at h
    by_cases hc : s.ctl = .running
    · rw [runCore_running (s := s.afterInput) hc] at h
      exact .inl ⟨⟨hc, .inl hi⟩, h⟩
    · rw [runCore_idle (s := s.afterInput) hc] at h
      cases h
      exact .inr (.inl ⟨fun hd => hc hd.1, by simp [commandTaken, hi], rfl⟩)
  | cons i rest =>
    rw [step_of_input hi, ← afterInput_of_input hi] at h
    have hdue : i ≠ .idle → ¬ cycleDue s := by
      rintro hne ⟨-, he | he⟩ <;> simp_all
    cases i with
    | idle =>
      change runCore s.afterInput = .next t at h
      by_cases hc : s.ctl = .running
      · rw [runCore_running (s := s.afterInput) hc] at h
        exact .inl ⟨⟨hc, .inr (by rw [hi]; rfl)⟩, h⟩
      · rw [runCore_idle (s := s.afterInput) hc] at h
        cases h
        exact .inr (.inl ⟨fun hd => hc hd.1, by simp [commandTaken, hi], rfl⟩)
    | rst =>
      cases h
      exact .inr (.inr (.inl ⟨rfl, rfl⟩))
    | command c =>
      cases h
      exact .inr (.inr (.inr (.inl ⟨c, _, by simp [commandTaken, hi], hdue (by simp), rfl⟩)))
    | port p =>
      cases h
      rcases offerPort_cases p s.afterInput with ⟨ho, e⟩ | ⟨ho, e⟩
      · have ho' : s.cmdOutstanding = true := ho
        exact .inr (.inl ⟨hdue (by simp), by simp [commandTaken, hi, ho'], e⟩)
      · have ho' : s.cmdOutstanding = false := ho
        rcases servePort_cases p s.afterInput with ⟨c, hp, e'⟩ | ⟨hp, r, e'⟩ <;> rw [e'] at e
        · exact .inr (.inr (.inr (.inl ⟨c, true, by simp [commandTaken, hi, ho', hp], hdue (by simp), e⟩)))
        · exact .inr (.inr (.inr (.inr (.inl ⟨by simp [commandTaken, hi, ho', hp], hdue (by simp), r, e⟩))))
    | takeResponse =>
      cases h
      exact .inr (.inr (.inr (.inr (.inr ⟨by simp [commandTaken, hi], hdue (by simp), .inl rfl⟩))))
    | takeTrace =>
      cases h
      exact .inr (.inr (.inr (.inr (.inr ⟨by simp [commandTaken, hi], hdue (by simp), .inr rfl⟩))))

/-- Everything a command can do, in any state: only an answer, or the effect of one that is accepted. -/
theorem serve_cases (c : Command) (s : State) :
    (∃ r, serve c s = respond r s) ∨
    (c = .loadClear ∧ s.ctl ≠ .running ∧ serve c s = respond .ok (loadClear s)) ∨
    (∃ v, c = .loadAppend v ∧ s.ctl = .ready ∧ s.size ≠ s.params.memCap ∧
      serve c s =
        respond .ok { s with mem := Memory.put s.mem s.size (wrapW s.params.width v), size := s.size + 1 }) ∨
    (∃ a v m dst, c = .poke a v m ∧ s.ctl ≠ .running ∧ validAddr dst s = true ∧
      serve c s = respond .ok { s with mem := Memory.put s.mem dst.toNat (wrapW s.params.width v) }) ∨
    (∃ b, c = .run b ∧ s.ctl = .ready ∧ s.size = 0 ∧
      serve c s = raise .emptyProgram { s with traceEn := b, ip := 0 }) ∨
    (∃ b, c = .run b ∧ s.ctl = .ready ∧ 0 < s.size ∧
      serve c s = { s with traceEn := b, fail := FailRecord.clear, ip := 0, ctl := .running }) := by
  by_cases hc : s.ctl = .running
  · rw [serve_running hc]
    rcases serveRunning_cases c s hc with e | e
    · exact .inl ⟨_, e⟩
    · exact .inl ⟨_, e⟩
  · rw [serve_idle hc]
    cases c with
    | loadClear => exact .inr (.inl ⟨rfl, hc, rfl⟩)
    | loadAppend v =>
      rcases loadAppend_cases (wrapW s.params.width v) s with ⟨r, e, -⟩ | ⟨hr, hs, e⟩
      · exact .inl ⟨r, e⟩
      · exact .inr (.inr (.inl ⟨v, rfl, hr, hs, e⟩))
    | peek a m =>
      obtain ⟨r, e⟩ := peek_cases (wrapW s.params.width a) m s
      exact .inl ⟨r, e⟩
    | poke a v m =>
      rcases poke_cases (wrapW s.params.width a) (wrapW s.params.width v) m s with ⟨r, e⟩ | ⟨dst, hd, e⟩
      · exact .inl ⟨_, e⟩
      · exact .inr (.inr (.inr (.inl ⟨a, v, m, dst, rfl, hc, hd, e⟩)))
    | run b =>
      rcases startRun_cases b s with ⟨-, r, e, -⟩ | ⟨hr, hs, e⟩ | ⟨hr, hs, e⟩
      · exact .inl ⟨r, e⟩
      · exact .inr (.inr (.inr (.inr (.inl ⟨b, rfl, hr, hs, e⟩))))
      · exact .inr (.inr (.inr (.inr (.inr ⟨b, rfl, hr, hs, e⟩))))
    | status => exact .inl ⟨_, status_idle hc⟩

/-! ## Many steps -/

theorem runSteps_zero (s : State) : runSteps 0 s = .next s := rfl

theorem runSteps_succ {s t : State} (h : step s = .next t) (k : Nat) : runSteps (k + 1) s = runSteps k t := by
  simp [runSteps, h]

theorem core_run_next (M : Host.Core) (k : Nat) {s t : M.State} (h : M.step s = .next t) :
    M.run (k + 1) s = M.run k t := by
  simp [Host.Core.run, h]

theorem core_run_refused (M : Host.Core) (k : Nat) {s : M.State} {r : M.Refusal} (h : M.step s = .refused r) :
    M.run (k + 1) s = .refused r := by
  simp [Host.Core.run, h]

/-- `runSteps` is the host's own run of the machine. -/
theorem runSteps_eq_core_run (k : Nat) (s : State) : runSteps k s = Host.Core.run core k s := by
  induction k generalizing s with
  | zero => rfl
  | succ k ih =>
    cases h : step s with
    | next t => exact (runSteps_succ h k).trans ((ih t).trans (core_run_next core k h).symm)
    | fault r => exact nomatch r
    | refused r =>
      have hr : runSteps (k + 1) s = .refused r := by simp [runSteps, h]
      exact hr.trans (core_run_refused core k h).symm

end Sys2Proof.Machine
end

