-- ==== Sys2Proof/Tests/Slice0.lean ====
section
/-!
SUPPORT. Tests. Expected values are the vectors of 95_test_vectors.md (named S1, A1, ...) or are worked out by hand from
the rule named; the witnesses show, for every statement with hypotheses, states and operands that meet them.
-/

namespace Sys2Proof.Tests

open Sys2Proof.Machine

/-! ## Small states -/

/-- The parameters of 00_scope.md R6 with MEM_CAP = 100. -/
def smallParams : Params :=
  { width := 64
    overflowMode := .wrap
    addModes := OperandModes.allPosition
    mulModes := OperandModes.allPosition
    hostModeDefault := .immediate
    memCap := 100 }

/-- The same with OVERFLOW_MODE = Fault. -/
def faultParams : Params := { smallParams with overflowMode := .fault }

/-- The same with the destination of ADD under Immediate (the modes of vectors I2 and I3). -/
def immediateParams : Params :=
  { smallParams with addModes := { m1 := .position, m2 := .position, m3 := .immediate } }

/-- Ready, with an image loaded from address 0. -/
def loaded (cells : List Cell) : State :=
  { State.resetWith smallParams with size := cells.length, mem := Memory.putAll [] 0 cells }

/-- The run of an image, before its first cycle. -/
def running (cells : List Cell) : State := { loaded cells with ctl := .running }

/-- The host gives one command. -/
def given (c : Command) (s : State) : State := { s with inputs := [.command c] }

/-- A state that only ends a run with EmptyProgram. -/
def failedState : State := raise .emptyProgram (loaded [])

/-- The next state of an outcome. -/
def after : Host.Outcome State Fault Refusal → Option State
  | .next s => some s
  | .fault _ => none
  | .refused _ => none

/-- The cells of memory after an outcome. -/
def cellsAfter (o : Host.Outcome State Fault Refusal) : Option (List (Option Cell)) :=
  (after o).map fun s => (List.range s.size).map fun a => cellAt a s

/-- CTL_STATE, ip and FAIL after an outcome. -/
def endAfter (o : Host.Outcome State Fault Refusal) : Option (CtlState × Nat × FailRecord) :=
  (after o).map fun s => (s.ctl, s.ip, s.fail)

/-- The responses after an outcome. -/
def responsesAfter (o : Host.Outcome State Fault Refusal) : Option (List Response) :=
  (after o).map State.responses

/-- The trace records after an outcome. -/
def traceAfter (o : Host.Outcome State Fault Refusal) : Option (List TraceRecord) :=
  (after o).map State.trace

/-! ## Well-formedness: an operand cell after a missing one is refused -/

theorem test_wellformed_add_gap_first : ¬ WellFormed (.add none (some 0) none) := by decide
theorem test_wellformed_add_gap_second : ¬ WellFormed (.add (some 0) none (some 0)) := by decide
theorem test_wellformed_add_gap_both : ¬ WellFormed (.add none none (some 0)) := by decide
theorem test_wellformed_mul_gap_first : ¬ WellFormed (.mul none (some 0) (some 0)) := by decide
theorem test_wellformed_mul_gap_second : ¬ WellFormed (.mul (some 0) none (some 0)) := by decide
theorem test_wellformed_accepts :
    WellFormed (.add (some 0) (some 0) none) ∧ WellFormed (.mul none none none) ∧ WellFormed .halt := by decide
theorem test_whole_refuses_a_cut : ¬ Whole (.add (some 0) (some 0) none) ∧ ¬ Whole (.mul none none none) := by decide

/-! ## Decoding, words written out from 30_encoding.md R54 to R61 -/

theorem test_decode_add : decode [1, 9, 10, 3] = .ok (.add (some 9) (some 10) (some 3)) := rfl
theorem test_decode_mul :
    decode [2, -9223372036854775808, 11, -1] =
      .ok (.mul (some (-9223372036854775808)) (some 11) (some (-1))) := rfl
theorem test_decode_halt_ignores_what_follows : decode [99, 1, 2, 3] = .ok .halt := rfl
theorem test_decode_cut_by_the_end : decode [2, 7] = .ok (.mul (some 7) none none) := rfl
theorem test_decode_refuses_mode_digits : decode [1001, 0, 0, 0] = .error (.unknownOpcode 1001) := rfl
theorem test_decode_refuses_neighbours :
    [0, 3, 98, 100, -1, -9223372036854775807].map (fun op => decode [op]) =
      [.error (.unknownOpcode 0), .error (.unknownOpcode 3), .error (.unknownOpcode 98), .error (.unknownOpcode 100),
        .error (.unknownOpcode (-1)), .error (.unknownOpcode (-9223372036854775807))] := rfl
theorem test_decode_refuses_no_cell : decode [] = .error .noOpcodeCell := rfl
theorem test_decodeTableWord_rows :
    decodeTableWord 64 1 = some (.add (some 0) (some 0) (some 0)) ∧
    decodeTableWord 64 2 = some (.mul (some 0) (some 0) (some 0)) ∧
    decodeTableWord 64 99 = some .halt ∧ decodeTableWord 64 98 = none := ⟨rfl, rfl, rfl, rfl⟩
theorem test_decodeTableWord_operands :
    decodeTableWord 256 (1 + 9 * 2 ^ 64 + (2 ^ 64 - 1) * 2 ^ 128 + 2 ^ 63 * 2 ^ 192) =
      some (.add (some 9) (some (-1)) (some (-9223372036854775808))) := rfl

/-- P1 of 95_test_vectors.md. -/
theorem test_assemble_P1 :
    assemble [.add 9 10 11, .mul 11 12 0, .halt, .data [6, 7, 0, 3]] = [1, 9, 10, 11, 2, 11, 12, 0, 99, 6, 7, 0, 3] := rfl

/-! ## The W-bit range, by hand from 00_scope.md R7 and R9 -/

theorem test_wrap_eight :
    wrapW 8 127 = 127 ∧ wrapW 8 128 = -128 ∧ wrapW 8 (-129) = 127 ∧ wrapW 8 (100 * 100) = 16 ∧
    fitsW 8 (-128) = true ∧ fitsW 8 128 = false := by decide

/-- A machine of another width stores what fits in that width. -/
theorem test_width_eight_stores :
    cellsAfter (step { running [1, 5, 5, 0, 99, 127] with params := { smallParams with width := 8 } }) =
      some [some (-2), some 5, some 5, some 0, some 99, some 127] := by decide

/-! ## ADD -/

/-- S2, and both sources and the destination one cell. -/
theorem test_add_S2 : cellsAfter (step (running [1, 0, 0, 0, 99])) = some [some 2, some 0, some 0, some 0, some 99] := by
  decide

/-- A13 under Wrap. -/
theorem test_add_A13_wrap :
    cellsAfter (step (running [1, 5, 5, 0, 99, 9223372036854775807])) =
      some [some (-2), some 5, some 5, some 0, some 99, some 9223372036854775807] := by decide

/-! ## MUL -/

/-- M3: the sign of the product. -/
theorem test_mul_M3 :
    cellsAfter (step (running [2, 5, 6, 7, 99, -3, 4, 0])) =
      some [some 2, some 5, some 6, some 7, some 99, some (-3), some 4, some (-12)] := by decide

/-- M6: a square just past 2^63. -/
theorem test_mul_M6_wrap :
    (cellsAfter (step (running [2, 5, 5, 0, 99, 3037000500]))).map List.head? =
      some (some (some (-9223372036709301616))) := by decide

/-! ## HALT -/

/-- H1. -/
theorem test_halt_H1 :
    endAfter (step (running [99])) = some (.halted, 0, FailRecord.clear) ∧
    responsesAfter (step (running [99])) = some [.ok] := by decide

/-- H4: the trace of a Halt has no operand. -/
theorem test_halt_H4 :
    traceAfter (step { running [99, 0, 0] with traceEn := true }) = some [{ name := .halt, ip := 0, operands := [] }] := by
  decide

/-! ## Failures -/

/-- A8: the operand cell that does not exist. -/
theorem test_fail_A8 :
    endAfter (step (running [1, 0, 0])) =
      some (.failed, 0, { kind := .outOfRange, ip := 0, opcode := 0, addr := 3, access := .read }) := by decide

/-- M8 under Fault: overflow comes before the bad destination. -/
theorem test_fail_M8_fault :
    endAfter (step { running [2, 5, 5, 9, 99, 4294967296] with params := faultParams }) =
      some (.failed, 0, { kind := .overflow, ip := 0, opcode := 0, addr := 0, access := .none }) := by decide

/-- S6: the write stays. -/
theorem test_fail_S6 :
    endAfter (step (running [1, 0, 0, 0])) =
      some (.failed, 4, { kind := .missingHalt, ip := 4, opcode := 0, addr := 0, access := .none }) ∧
    cellsAfter (step (running [1, 0, 0, 0])) = some [some 2, some 0, some 0, some 0] := by decide

/-- U3. -/
theorem test_fail_U3 :
    endAfter (step (running [1001, 0, 0, 0, 99])) =
      some (.failed, 0, { kind := .unknownOpcode, ip := 0, opcode := 1001, addr := 0, access := .none }) := by decide

/-- I2: a destination cell under Immediate. -/
theorem test_mode_I2 :
    cellsAfter (step { running [1, 0, 0, 0, 99] with params := immediateParams }) =
      some [some 1, some 0, some 0, some 2, some 99] := by decide

/-- I3: the destination cell is not read, so the fault comes at the write. -/
theorem test_mode_I3 :
    endAfter (step { running [1, 0, 0] with params := immediateParams }) =
      some (.failed, 0, { kind := .outOfRange, ip := 0, opcode := 0, addr := 3, access := .write }) := by decide

/-- S1, first instruction, with RUN(1): the trace record of 95_test_vectors.md section 1. -/
theorem test_trace_S1 :
    traceAfter (step { running [1, 9, 10, 3, 2, 3, 11, 0, 99, 30, 40, 50] with traceEn := true }) =
      some [{ name := .add, ip := 0, operands :=
        [ { mode := .position, raw := some 9, resolved := .value 30 },
          { mode := .position, raw := some 10, resolved := .value 40 },
          { mode := .position, raw := some 3, resolved := .address 3 } ] }] := by decide

/-! ## The host (95_test_vectors.md section 2.8) -/

/-- H-P4. -/
theorem test_host_HP4 :
    responsesAfter (step (given (.peek 1 (some .position)) (loaded [4, 3, -2, 10, 77]))) = some [.okValue 10] := by decide

/-- H-P3. -/
theorem test_host_HP3 :
    responsesAfter (step (given (.peek (-1) none) (loaded [4, 3, -2, 10, 77]))) = some [.outOfRange (-1)] := by decide

/-- H-W4. -/
theorem test_host_HW4 :
    cellsAfter (step (given (.poke 1 42 (some .position)) (loaded [4, 3, -2, 10, 77]))) =
      some [some 4, some 3, some (-2), some 42, some 77] := by decide

/-- H-W5. -/
theorem test_host_HW5 :
    responsesAfter (step (given (.poke 2 1 (some .position)) (loaded [4, 3, -2, 10, 77]))) =
      some [.outOfRange (-2)] := by decide

/-- L4, the last append, with MEM_CAP = 2. -/
theorem test_host_L4 :
    responsesAfter (step (given (.loadAppend 3) { loaded [1, 2] with params := { smallParams with memCap := 2 } })) =
      some [.loadTooLarge] := by decide

/-- L2: RUN of an empty memory, then RUN in Failed. -/
theorem test_host_L2 :
    responsesAfter (step (given (.run false) (loaded []))) =
      some [.runFailed { kind := .emptyProgram, ip := 0, opcode := 0, addr := 0, access := .none }] ∧
    (after (step (given (.run false) failedState))).map (fun s => s.responses.getLast?) = some (some .runRejected) := by
  decide

/-- Command signals with every argument 0. -/
def signals (op : BitVec 3) : CommandPort := { op := op, addr := 0, data := 0, mode := 0, trace := false }

/-- 42_controller.md R95: `cmd_op` 7 outside a run is answered; a command offered before its response is taken is not
taken, not even in a run; it is after. -/
theorem test_host_port :
    responsesAfter (step { loaded [99] with inputs := [.port (signals 7)] }) = some [.runRejected] ∧
    responsesAfter (runSteps 2 { loaded [99] with inputs := [.port (signals 5), .port (signals 7)] }) =
      responsesAfter (runSteps 1 { loaded [99] with inputs := [.port (signals 5)] }) ∧
    responsesAfter (runSteps 2 { loaded [99] with inputs := [.port (signals 4), .port (signals 0)] }) = some [] ∧
    responsesAfter (runSteps 3 { loaded [99] with inputs := [.port (signals 7), .takeResponse, .port (signals 0)] }) =
      some [.ok] := by decide

/-- L1 at the port: the status after reset, and `cmd_ready`, low from a RUN until its response is taken. -/
theorem test_host_L1 :
    (portOutputs (assertReset (running [99]))).stState = 0 ∧ (portOutputs (assertReset (running [99]))).stSize = 0 ∧
    (portOutputs (assertReset (running [99]))).cmdReady = true ∧
    ((after (runSteps 1 { loaded [99] with inputs := [.port (signals 4), .idle] })).map fun s =>
      (portOutputs s).cmdReady) = some false ∧
    ((after (runSteps 2 { loaded [99] with inputs := [.port (signals 4), .idle] })).map fun s =>
      (portOutputs s).cmdReady) = some false ∧
    ((after (runSteps 3 { loaded [99] with inputs := [.port (signals 4), .idle, .takeResponse] })).map fun s =>
      (portOutputs s).cmdReady) = some true := by decide

/-- An argument is the W-bit value its low bits give (log 9). -/
theorem test_host_narrow :
    cellsAfter (step (given (.loadAppend 18446744073709551615) (loaded [7]))) = some [some 7, some (-1)] := by decide

/-- The host's way to place one instruction: the very next step runs it. -/
theorem test_withFetchWord :
    (after (step (State.reset.withFetchWord 64 99))).map State.ctl = some .halted ∧
    cellsAfter (step (State.reset.withFetchWord 64 2)) = some [some 4, some 0, some 0, some 0] := ⟨rfl, rfl⟩

/-! ## Witnesses: states and operands that meet the hypotheses of the statements -/

/-- The image of S1. -/
def imageS1 : List Cell := [1, 9, 10, 3, 2, 3, 11, 0, 99, 30, 40, 50]

/-- The first instruction of S1 and what its operands resolve to. -/
def operandsS1 : Op3Operands := { v1 := 30, v2 := 40, dst := 3 }

/-- The invariant holds at the start of the run of S1. -/
theorem inv_running_S1 : Inv (running imageS1) := by
  constructor <;> first | decide | (constructor <;> decide)

/-- Lowest and highest address inside, and the nearest ones outside, in a memory of 5 cells (S9). -/
theorem witness_MemReadReadsTheCellOrFails :
    ((0 : Int) ≤ 0 ∧ (0 : Int) < (loaded [4, 3, -2, 10, 77]).size) ∧
    ((0 : Int) ≤ 4 ∧ (4 : Int) < (loaded [4, 3, -2, 10, 77]).size) ∧ ((-1 : Int) < 0) ∧
    (((loaded [4, 3, -2, 10, 77]).size : Int) ≤ 5) := by decide

theorem witness_MemWriteReplacesExactlyOneCell :
    (after (match memWrite 4 9 (loaded [4, 3, -2, 10, 77]) with | .ok t => .next t | .error _ => .next failedState)).map
      (cellAt 4) = some (some 9) ∧
    memWrite 5 0 (loaded [4, 3, -2, 10, 77]) = .error { addr := 5, access := .write } ∧
    memWrite (-1) 0 (loaded [4, 3, -2, 10, 77]) = .error { addr := -1, access := .write } := ⟨rfl, rfl, rfl⟩

/-- R5 to R13 of 95_test_vectors.md: an operand cell that exists and one that does not. -/
theorem witness_ResolverReadsAndTargets :
    memRead 4 (loaded [4, 3, -2, 10, 77]) = .ok 77 ∧
    memRead 5 (loaded [4, 3, -2, 10, 77]) = .error { addr := 5, access := .read } := ⟨rfl, rfl⟩

/-- R14 and R15. -/
theorem witness_ResolvedWriteIsReadBack :
    (resolveWrite 1 .position (loaded [4, 3, -2, 10, 77]) = .ok 3 ∧
      ∃ t, memWrite 3 55 (loaded [4, 3, -2, 10, 77]) = .ok t) ∧
    (resolveWrite 1 .immediate (loaded [4, 3, -2, 10, 77]) = .ok 1 ∧
      ∃ t, memWrite 1 (-8) (loaded [4, 3, -2, 10, 77]) = .ok t) := ⟨⟨rfl, _, rfl⟩, rfl, _, rfl⟩

/-- The least width, and a value congruent to one just outside the range of 64 bits. -/
theorem witness_WrapIsTheResidueAndFitsIsTheRange :
    1 ≤ 1 ∧ ((2 : Int) ^ 64 ∣ -9223372036854775808 - 9223372036854775808 ∧
      (-2 : Int) ^ 63 ≤ -9223372036854775808 ∧ (-9223372036854775808 : Int) < 2 ^ 63) ∧
    fitsW 1 (-1) = true ∧ wrapW 1 1 = -1 := by decide

theorem witness_DecodeUndoesEncode :
    WellFormed (.add (some 1) none none) ∧ WellFormed (.mul (some (-1)) (some 0) (some 5)) ∧
    Whole (.mul (some (-1)) (some 0) (some 5)) ∧ WellFormed .halt ∧ Whole .halt := by decide

theorem witness_EncodeUndoesDecode :
    decode [1, 2, 3] = .ok (.add (some 2) (some 3) none) ∧ decode [99, 1] = .ok .halt := ⟨rfl, rfl⟩

theorem witness_OnlyThreeOpcodesDecode :
    decode [2] = .ok (.mul none none none) ∧ ((98 : Cell) ≠ 1 ∧ (98 : Cell) ≠ 2 ∧ (98 : Cell) ≠ 99) := ⟨rfl, by decide⟩

theorem witness_FetchReadsMemoryFromIp :
    (0 < 4) ∧ (3 < 4) ∧ (fetchCells (running imageS1))[3]? = some 3 ∧ (fetchCells (running [1, 0, 0]))[3]? = none := by
  decide

theorem witness_StepRunsTheDecodedInstruction :
    (running imageS1).ctl = .running ∧ decode (fetchCells (running imageS1)) = .ok (.add (some 9) (some 10) (some 3)) ∧
    (running imageS1).inputs = [] ∧ { running imageS1 with inputs := [.idle, .rst] }.inputs = .idle :: [.rst] :=
  ⟨rfl, rfl, rfl, rfl⟩

theorem witness_AddFollowsItsRule :
    (running imageS1).ctl = .running ∧ (running imageS1).inputs = [] ∧
    cellAt ((running imageS1).ip) (running imageS1) = some 1 ∧
    (running imageS1).params.addModes = OperandModes.allPosition ∧
    cellAt ((running imageS1).ip + 1) (running imageS1) = some 9 ∧
    cellAt ((running imageS1).ip + 2) (running imageS1) = some 10 ∧
    cellAt ((running imageS1).ip + 3) (running imageS1) = some 3 ∧
    cellAt 9 (running imageS1) = some 30 ∧ cellAt 10 (running imageS1) = some 40 ∧
    validAddr 3 (running imageS1) = true ∧ (running imageS1).params.overflowMode = .wrap := by decide

theorem witness_MulFollowsItsRule :
    (running [2, 4, 4, 5, 99, 0]).ctl = .running ∧ (running [2, 4, 4, 5, 99, 0]).inputs = [] ∧
    cellAt ((running [2, 4, 4, 5, 99, 0]).ip) (running [2, 4, 4, 5, 99, 0]) = some 2 ∧
    (running [2, 4, 4, 5, 99, 0]).params.mulModes = OperandModes.allPosition ∧
    cellAt ((running [2, 4, 4, 5, 99, 0]).ip + 1) (running [2, 4, 4, 5, 99, 0]) = some 4 ∧
    cellAt ((running [2, 4, 4, 5, 99, 0]).ip + 2) (running [2, 4, 4, 5, 99, 0]) = some 4 ∧
    cellAt ((running [2, 4, 4, 5, 99, 0]).ip + 3) (running [2, 4, 4, 5, 99, 0]) = some 5 ∧
    cellAt 4 (running [2, 4, 4, 5, 99, 0]) = some 99 ∧
    validAddr 5 (running [2, 4, 4, 5, 99, 0]) = true ∧ fitsW 64 (99 * 99) = true := by decide

theorem witness_AddCompletes :
    resolveOperands (running imageS1).params.addModes (some 9) (some 10) (some 3) (running imageS1) = .ok operandsS1 ∧
    validAddr operandsS1.dst (running imageS1) = true ∧
    fitsW 64 (operandsS1.v1 + operandsS1.v2) = true ∧
    (running imageS1).ip + 4 < (running imageS1).size := ⟨rfl, by decide⟩

theorem witness_MulCompletes :
    resolveOperands (running imageS1).params.mulModes (some 9) (some 10) (some 3) (running imageS1) = .ok operandsS1 ∧
    validAddr operandsS1.dst (running imageS1) = true ∧
    fitsW 64 (operandsS1.v1 * operandsS1.v2) = true ∧
    (running imageS1).ip + 4 < (running imageS1).size := ⟨rfl, by decide⟩

/-- Both instructions, operands that resolve and operands that do not. -/
theorem witness_ArithmeticFrame :
    (∃ t, exec (.add (some 9) (some 10) (some 3)) (running imageS1) = .next t ∧ t.ctl ≠ .failed) ∧
    (∃ t, exec (.mul (some 9) (some 10) none) (running imageS1) = .next t) ∧
    resolveOperands (running imageS1).params.addModes (some 9) (some 10) (some 3) (running imageS1) = .ok operandsS1 ∧
    resolveOperands (running imageS1).params.mulModes (some 9) (some 10) none (running imageS1) =
      .error { addr := 3, access := .read } := ⟨⟨_, rfl, by decide⟩, ⟨_, rfl⟩, rfl, rfl⟩

theorem witness_HaltEndsTheRun :
    (running [99]).ctl = .running ∧ (running [99]).inputs = [] ∧
    cellAt ((running [99]).ip) (running [99]) = some 99 ∧ ∃ t, exec .halt (running [99]) = .next t :=
  ⟨rfl, rfl, rfl, _, rfl⟩

/-- An operand cell missing as the first, the second and the third one, and the third one under Immediate. -/
theorem witness_AbsentOperandCellRaisesOutOfRange :
    (none : Option Cell) = none ∧
    readThrough (operandCell ((running [1, 0, 0]).ip + 1) (some 0)) .position (running [1, 0, 0]) = .ok 1 ∧
    readThrough (operandCell ((running [1, 0, 0]).ip + 2) (some 0)) .position (running [1, 0, 0]) = .ok 1 ∧
    (running [1, 0, 0]).params.addModes.m3 ≠ .immediate ∧ immediateParams.addModes.m3 = .immediate :=
  ⟨rfl, rfl, rfl, by decide⟩

/-- Memory ends right after the instruction (S6), or goes on (S2). -/
theorem witness_MissingHaltAfterTheWrite :
    (resolveOperands smallParams.addModes (some 0) (some 0) (some 0) (running [1, 0, 0, 0]) =
        .ok { v1 := 1, v2 := 1, dst := 0 } ∧
      validAddr 0 (running [1, 0, 0, 0]) = true ∧ fitsW 64 (1 + 1) = true ∧
      (running [1, 0, 0, 0]).size ≤ (running [1, 0, 0, 0]).ip + 4) ∧
    (resolveOperands smallParams.mulModes (some 0) (some 0) (some 0) (running [2, 0, 0, 0, 99]) =
        .ok { v1 := 2, v2 := 2, dst := 0 } ∧
      validAddr 0 (running [2, 0, 0, 0, 99]) = true ∧ fitsW 64 (2 * 2) = true ∧
      (running [2, 0, 0, 0, 99]).ip + 4 < (running [2, 0, 0, 0, 99]).size) :=
  ⟨⟨rfl, by decide⟩, rfl, by decide⟩

/-- A bad source (A5) and a bad destination (A9, for MUL), at the nearest addresses outside. -/
theorem witness_OutOfRangeIsReported :
    (decode (fetchCells (running [1, -1, 0, 0, 99])) = .ok (.add (some (-1)) (some 0) (some 0)) ∧
      resolveOperands smallParams.addModes (some (-1)) (some 0) (some 0) (running [1, -1, 0, 0, 99]) =
        .error { addr := -1, access := .read }) ∧
    (decode (fetchCells (running [2, 0, 0, 5, 99])) = .ok (.mul (some 0) (some 0) (some 5)) ∧
      resolveOperands smallParams.mulModes (some 0) (some 0) (some 5) (running [2, 0, 0, 5, 99]) =
        .ok { v1 := 2, v2 := 2, dst := 5 } ∧
      ((running [2, 0, 0, 5, 99]).size : Int) ≤ 5 ∧ fitsW 64 (2 * 2) = true) :=
  ⟨⟨rfl, rfl⟩, rfl, rfl, by decide⟩

/-- A result one past each end of the range under Fault (A13, M5), and results at the ends. -/
theorem witness_OverflowOnlyInFaultMode :
    (resolveOperands faultParams.addModes (some 5) (some 6) (some 0)
        { running [1, 5, 6, 0, 99, 9223372036854775807, 1] with params := faultParams } =
          .ok { v1 := 9223372036854775807, v2 := 1, dst := 0 } ∧
      faultParams.overflowMode = .fault ∧ fitsW 64 (9223372036854775807 + 1) = false) ∧
    fitsW 64 (-9223372036854775808 - 1) = false ∧ fitsW 64 9223372036854775807 = true ∧ fitsW 64 (-9223372036854775808) = true ∧
    smallParams.overflowMode = .wrap := ⟨⟨rfl, by decide⟩, by decide⟩

/-- Opcodes beside the three defined ones. -/
theorem witness_UnknownOpcodeFailsTheRun :
    (running [3]).ctl = .running ∧ (running [3]).inputs = [] ∧
    cellAt ((running [3]).ip) (running [3]) = some 3 ∧ 3 ≠ 1 ∧ 3 ≠ 2 ∧ 3 ≠ 99 := by decide

theorem witness_EmptyProgramIsRejected :
    (given (.run true) (loaded [])).ctl = .ready ∧ (given (.run true) (loaded [])).size = 0 ∧
    (given (.run true) (loaded [])).inputs = .command (.run true) :: [] := ⟨rfl, rfl, rfl⟩

/-- A failure other than MissingHalt (A5) and MissingHalt (S6). -/
theorem witness_FailuresArePrecise :
    (∃ t, exec (.add (some (-1)) (some 0) (some 0)) (running [1, -1, 0, 0, 99]) = .next t ∧ t.ctl = .failed ∧
      t.fail.kind ≠ .missingHalt) ∧
    (∃ t, exec (.add (some 0) (some 0) (some 0)) (running [1, 0, 0, 0]) = .next t ∧ t.ctl = .failed ∧
      t.fail.kind = .missingHalt) := ⟨⟨_, rfl, by decide⟩, _, rfl, by decide⟩

theorem witness_FailureEntryWritesFailAndStops :
    (raise .missingHalt (loaded [])).fail.kind ≠ .unknownOpcode ∧
    (raise .overflow (loaded [])).fail.kind ≠ .outOfRange := by decide

theorem witness_RunStartsAtZero :
    (given (.run true) (loaded [99])).ctl = .ready ∧ 0 < (given (.run true) (loaded [99])).size ∧
    (given (.run true) (loaded [99])).inputs = .command (.run true) :: [] := ⟨rfl, by decide, rfl⟩

/-- In Ready, Running and Failed. -/
theorem witness_RunIsRejectedOutsideReady :
    (given (.run false) (loaded [99])).ctl = .ready ∧ (given (.run false) (running [99])).ctl = .running ∧
    (given (.run false) failedState).ctl = .failed ∧
    (given (.run false) failedState).inputs = .command (.run false) :: [] := ⟨rfl, rfl, rfl, rfl⟩

theorem witness_LoadClearEmptiesTheMachine :
    (given .loadClear failedState).ctl ≠ .running ∧
    (given .loadClear failedState).inputs = .command .loadClear :: [] := ⟨by decide, rfl⟩

/-- Below MEM_CAP, at MEM_CAP, in Failed and Halted; an image as long as MEM_CAP with cells at the ends of the range. -/
theorem witness_LoadAppendBuildsTheImage :
    ((given (.loadAppend 5) (loaded [99])).ctl = .ready ∧
      (given (.loadAppend 5) (loaded [99])).size ≠ (given (.loadAppend 5) (loaded [99])).params.memCap ∧
      (given (.loadAppend 5) (loaded [99])).inputs = .command (.loadAppend 5) :: []) ∧
    { loaded [1, 2] with params := { smallParams with memCap := 2 } }.size = 2 ∧
    (given (.loadAppend 5) failedState).ctl = .failed ∧
    { given (.loadAppend 5) (loaded [99]) with ctl := .halted }.ctl = .halted ∧
    (loaded [7]).ctl ≠ .running ∧ failedState.ctl ≠ .running ∧ failedState.params = (loaded [7]).params ∧
    ([1, 2] : List Cell).length ≤ (loaded [7]).params.memCap ∧ 1 ≤ (loaded [7]).params.width ∧
    (∀ v ∈ [9223372036854775807, -9223372036854775808], fitsW (loaded [7]).params.width v = true) := by decide

/-- A PEEK that answers a value and one that answers OutOfRange (H-P4, H-P2). -/
theorem witness_PeekReadsThroughTheResolver :
    (given (.peek 1 (some .position)) (loaded [4, 3, -2, 10, 77])).ctl ≠ .running ∧
    (given (.peek 1 (some .position)) (loaded [4, 3, -2, 10, 77])).inputs = .command (.peek 1 (some .position)) :: [] ∧
    resolveRead 1 .position (given (.peek 1 (some .position)) (loaded [4, 3, -2, 10, 77])) = .ok 10 ∧
    resolveRead 5 .immediate (given (.peek 5 none) (loaded [4, 3, -2, 10, 77])) =
      .error { addr := 5, access := .read } := ⟨by decide, rfl, rfl, rfl⟩

/-- A POKE that writes, one whose target is no cell, one whose operand cell is none (H-W1, H-W2, and at address 5 under
Position). -/
theorem witness_PokeWritesThroughTheResolver :
    (given (.poke 4 9 none) (loaded [4, 3, -2, 10, 77])).ctl ≠ .running ∧
    (given (.poke 4 9 none) (loaded [4, 3, -2, 10, 77])).inputs = .command (.poke 4 9 none) :: [] ∧
    (resolveWrite 4 .immediate (loaded [4, 3, -2, 10, 77]) = .ok 4 ∧
      validAddr 4 (loaded [4, 3, -2, 10, 77]) = true) ∧
    (resolveWrite 5 .immediate (loaded [4, 3, -2, 10, 77]) = .ok 5 ∧
      validAddr 5 (loaded [4, 3, -2, 10, 77]) = false) ∧
    resolveWrite 5 .position (loaded [4, 3, -2, 10, 77]) = .error { addr := 5, access := .read } :=
  ⟨by decide, rfl, ⟨rfl, rfl⟩, ⟨rfl, rfl⟩, rfl⟩

/-- In a run and outside one. -/
theorem witness_StatusShowsTheFields :
    (given .status (running [99])).ctl = .running ∧ (given .status (loaded [99])).ctl ≠ .running ∧
    (given .status (loaded [99])).inputs = .command .status :: [] := ⟨rfl, by decide, rfl⟩

theorem witness_CommandsAreBusyDuringARun :
    (given (.poke 0 0 none) (running [99])).ctl = .running ∧
    (given (.poke 0 0 none) (running [99])).inputs = .command (.poke 0 0 none) :: [] ∧
    Command.poke 0 0 none ≠ .status := ⟨rfl, rfl, by decide⟩

/-- Each of the five answers that are no failures is given. -/
theorem witness_CommandResponsesAreNotFailures :
    responsesAfter (step (given (.peek 9 none) (loaded [99]))) = some ((loaded [99]).responses ++ [.outOfRange 9]) ∧
    responsesAfter (step (given .loadClear (running [99]))) = some ((running [99]).responses ++ [.busy]) ∧
    responsesAfter (step (given (.run false) failedState)) = some (failedState.responses ++ [.runRejected]) ∧
    responsesAfter (step (given (.loadAppend 0) { loaded [1, 2] with params := { smallParams with memCap := 2 } })) =
      some ([] ++ [.loadTooLarge]) ∧
    responsesAfter (step (given (.loadAppend 0) failedState)) = some (failedState.responses ++ [.notLoading]) := by
  decide

/-- A command's signals and `cmd_op` 6 and 7, in a run and outside one, with `cmd_ready` high. -/
theorem witness_PortSignalsNameTheCommands :
    ((signals 6).op = 6 ∨ (signals 6).op = 7) ∧ ((signals 7).op = 6 ∨ (signals 7).op = 7) ∧
    portCommand (signals 5) = some .status ∧ portCommand (signals 0) = some .loadClear ∧
    { running [99] with inputs := [.port (signals 6)] }.inputs = .port (signals 6) :: [] ∧
    (running [99]).ctl = .running ∧ (running [99]).cmdOutstanding = false ∧
    (loaded [99]).ctl ≠ .running ∧ (loaded [99]).cmdOutstanding = false := by decide

/-- An offer with `cmd_ready` low and one with it high; a lone response taken, outside a run; a RUN that starts. -/
theorem witness_PortTakesOneCommandAtATime :
    (∃ t, step { loaded [99] with inputs := [.port (signals 5)], cmdOutstanding := true } = .next t) ∧
    (∃ t, step { loaded [99] with inputs := [.port (signals 4)] } = .next t ∧ t.cmdOutstanding = true ∧
      t.ctl = .running) ∧
    (∃ t, step { loaded [99] with inputs := [.takeResponse], responses := [.ok], cmdOutstanding := true } = .next t ∧
      t.cmdOutstanding = false) ∧
    (loaded [99]).cmdOutstanding = false ∧ (loaded [99]).ctl ≠ .running :=
  ⟨⟨_, rfl⟩, ⟨_, rfl, rfl, rfl⟩, ⟨_, rfl, rfl⟩, rfl, by decide⟩

/-- Queues with an entry and without one. -/
theorem witness_PortOutputsShowTheMachine :
    { loaded [99] with responses := [.ok] }.responses = .ok :: [] ∧ (loaded [99]).responses = [] ∧
    { loaded [99] with trace := [{ name := .halt, ip := 0, operands := [] }] }.trace =
      { name := .halt, ip := 0, operands := [] } :: [] ∧ (loaded [99]).trace = [] := ⟨rfl, rfl, rfl, rfl⟩

/-- A reset during a run, with a RUN behind it; a run that a cycle ends. -/
theorem witness_ResetPutsEveryFieldAtItsValue :
    { running imageS1 with inputs := [.rst, .command (.run true)] }.inputs = .rst :: [.command (.run true)] ∧
    (running [99]).ctl = .running ∧ ∃ t, step (running [99]) = .next t ∧ t.ctl ≠ .running :=
  ⟨rfl, rfl, _, rfl, by decide⟩

theorem witness_IdleStatesKeepEverything :
    (loaded [99]).ctl ≠ .running ∧ failedState.ctl ≠ .running ∧ failedState.inputs = [] := ⟨by decide, by decide, rfl⟩

/-- Each row of the table of 42_controller.md R72: the RUNs, a HALT, a resolution that fails, an overflow in Fault mode,
a destination outside memory, a write with memory ending at ip + 4 and one with memory going on, an unknown opcode,
LOAD_CLEAR, reset. -/
theorem witness_ControllerFollowsItsTable :
    (∃ t, step (given (.run true) (loaded [])) = .next t) ∧
    ((given (.run true) (loaded [])).ctl = .ready ∧ commandTaken (given (.run true) (loaded [])) = some (.run true) ∧
      (given (.run true) (loaded [])).size = 0) ∧
    0 < (given (.run true) (loaded [99])).size ∧
    (cycleDue (running [99]) ∧ cellAt ((running [99]).ip) (running [99]) = some 99) ∧
    (cycleDue (running [1, -1, 0, 0, 99]) ∧
      resolveOperands smallParams.addModes (some (-1)) (some 0) (some 0) (running [1, -1, 0, 0, 99]) =
        .error { addr := -1, access := .read }) ∧
    (resolveOperands faultParams.mulModes (some 5) (some 5) (some 9)
        { running [2, 5, 5, 9, 99, 4294967296] with params := faultParams } =
          .ok { v1 := 4294967296, v2 := 4294967296, dst := 9 } ∧
      faultParams.overflowMode = .fault ∧ fitsW 64 (4294967296 * 4294967296) = false) ∧
    (resolveOperands smallParams.addModes (some 0) (some 0) (some 5) (running [1, 0, 0, 5, 99]) =
        .ok { v1 := 1, v2 := 1, dst := 5 } ∧
      validAddr 5 (running [1, 0, 0, 5, 99]) = false ∧ smallParams.overflowMode = .wrap) ∧
    (resolveOperands smallParams.addModes (some 0) (some 0) (some 0) (running [1, 0, 0, 0]) =
        .ok { v1 := 1, v2 := 1, dst := 0 } ∧
      validAddr 0 (running [1, 0, 0, 0]) = true ∧ (running [1, 0, 0, 0]).size ≤ (running [1, 0, 0, 0]).ip + 4) ∧
    (cycleDue (running imageS1) ∧ cellAt ((running imageS1).ip) (running imageS1) = some 1 ∧
      resolveOperands smallParams.addModes (some 9) (some 10) (some 3) (running imageS1) = .ok operandsS1 ∧
      (running imageS1).ip + 4 < (running imageS1).size) ∧
    (cycleDue (running [3]) ∧ cellAt ((running [3]).ip) (running [3]) = some 3) ∧
    (failedState.ctl ≠ .running ∧ commandTaken (given .loadClear failedState) = some .loadClear) ∧
    { running [99] with inputs := [.rst] }.inputs.head? = some .rst ∧
    (∃ t, step (running [99]) = .next t ∧ t.ctl ≠ (running [99]).ctl) :=
  ⟨⟨_, rfl⟩, by decide, by decide, ⟨⟨rfl, .inl rfl⟩, rfl⟩, ⟨⟨rfl, .inl rfl⟩, rfl⟩, ⟨rfl, by decide⟩,
    ⟨rfl, by decide⟩, ⟨rfl, by decide⟩, ⟨⟨rfl, .inl rfl⟩, rfl, rfl, by decide⟩, ⟨⟨rfl, .inl rfl⟩, rfl⟩,
    by decide, rfl, _, rfl, by decide⟩

/-- SIZE changes by LOAD_APPEND, LOAD_CLEAR and reset. -/
theorem witness_SizeChangesOnlyByLoads :
    (∃ t, exec .halt (running [99]) = .next t) ∧
    (∃ t, step (given (.loadAppend 5) (loaded [99])) = .next t ∧ t.size ≠ (given (.loadAppend 5) (loaded [99])).size) ∧
    (∃ t, step (given .loadClear (loaded [99])) = .next t ∧ t.size ≠ (given .loadClear (loaded [99])).size) ∧
    (∃ t, step { running [99] with inputs := [.rst] } = .next t ∧ t.size ≠ { running [99] with inputs := [.rst] }.size) :=
  ⟨⟨_, rfl⟩, ⟨_, rfl, by decide⟩, ⟨_, rfl, by decide⟩, _, rfl, by decide⟩

/-- ip changes by a cycle, and by LOAD_CLEAR. -/
theorem witness_IpIsWrittenNowhereElse :
    (∃ t, step (running imageS1) = .next t ∧ t.ip ≠ (running imageS1).ip) ∧
    (∃ t, step (given .loadClear { loaded [99] with ip := 4, ctl := .halted }) = .next t ∧ t.ip ≠ 4) :=
  ⟨⟨_, rfl, by decide⟩, _, rfl, by decide⟩

theorem witness_ParametersNeverChange : ∃ t, runSteps 3 (running imageS1) = .next t := ⟨_, rfl⟩

/-- An ADD whose operands resolve, one whose operands do not, a HALT, an unknown opcode, and an EmptyProgram RUN. -/
theorem witness_TraceRecordsEachInstruction :
    ((running imageS1).ctl = .running ∧ (running imageS1).inputs = [] ∧ (∃ t, step (running imageS1) = .next t) ∧
      cellAt ((running imageS1).ip) (running imageS1) = some 1 ∧
      resolveRead ((running imageS1).ip + 1) .position (running imageS1) = .ok 30 ∧
      resolveRead ((running imageS1).ip + 2) .position (running imageS1) = .ok 40 ∧
      resolveWrite ((running imageS1).ip + 3) .position (running imageS1) = .ok 3) ∧
    (cellAt ((running [2, 0, 0]).ip) (running [2, 0, 0]) = some 2 ∧
      resolveWrite ((running [2, 0, 0]).ip + 3) .position (running [2, 0, 0]) = .error { addr := 3, access := .read }) ∧
    (cellAt ((running [99]).ip) (running [99]) = some 99 ∧ ∃ t, step (running [99]) = .next t) ∧
    (cellAt ((running [3]).ip) (running [3]) = some 3 ∧ ∃ t, step (running [3]) = .next t) ∧
    (given (.run true) (loaded [])).ctl = .ready ∧ ∃ t, step (given (.run true) (loaded [])) = .next t :=
  ⟨⟨rfl, rfl, ⟨_, rfl⟩, rfl, rfl, rfl, rfl⟩, ⟨rfl, rfl⟩, ⟨rfl, _, rfl⟩, ⟨rfl, _, rfl⟩, rfl, _, rfl⟩

theorem witness_TracingChangesNothing :
    (running imageS1).inputs = [] ∧ ∃ t, runSteps 3 (running imageS1) = .next t := ⟨rfl, _, rfl⟩

/-- Two states that differ in what a run does not compute with. -/
theorem witness_RunDependsOnItsViewAlone :
    (running imageS1).inputs = [] ∧ { running imageS1 with traceEn := true, freeCount := 5 }.inputs = [] ∧
    (running imageS1).view = { running imageS1 with traceEn := true, freeCount := 5 }.view ∧
    running imageS1 ≠ { running imageS1 with traceEn := true, freeCount := 5 } := by decide

/-- A run that ends Halted and one that ends Failed. -/
theorem witness_EveryRunEndsInTime :
    ((running imageS1).ctl = .running ∧ (running imageS1).inputs = [] ∧ (running imageS1).ip = 0 ∧
      0 < (running imageS1).size) ∧
    (after (runSteps 3 (running imageS1))).map State.ctl = some .halted ∧
    (after (runSteps 1 (running [1, 0, 0, 0]))).map State.ctl = some .failed := by decide

theorem witness_IpCountsByFours :
    (running imageS1).ctl = .running ∧ (running imageS1).inputs = [] ∧ (running imageS1).ip = 0 ∧
    ∃ t, runSteps 2 (running imageS1) = .next t ∧ t.ctl = .running := ⟨rfl, rfl, rfl, _, rfl, rfl⟩

/-- S5: the destination is the next opcode cell. -/
theorem witness_NextFetchSeesTheWrite :
    resolveOperands smallParams.addModes (some 1) (some 1) (some 4) (running [1, 1, 1, 4, 99, 5, 6, 0, 99]) =
      .ok { v1 := 1, v2 := 1, dst := 4 } ∧
    validAddr 4 (running [1, 1, 1, 4, 99, 5, 6, 0, 99]) = true ∧ fitsW 64 (1 + 1) = true ∧
    (running [1, 1, 1, 4, 99, 5, 6, 0, 99]).ip + 4 < (running [1, 1, 1, 4, 99, 5, 6, 0, 99]).size ∧
    (∃ t, exec (.add (some 1) (some 1) (some 4)) (running [1, 1, 1, 4, 99, 5, 6, 0, 99]) = .next t) ∧ (3 < 4) :=
  ⟨rfl, rfl, rfl, by decide, ⟨_, rfl⟩, by decide⟩

theorem witness_EveryStepKeepsTheInvariant :
    Inv (running imageS1) ∧ ∃ t, step (running imageS1) = .next t := ⟨inv_running_S1, _, rfl⟩

end Sys2Proof.Tests
end

/-! PROOFS. Family 20_memory: the access primitives, the address resolver and SIZE. -/

namespace Sys2Proof.Machine

/-! ## The access primitives inside and outside memory -/

theorem validAddr_eq_false_iff (a : Int) (s : State) : validAddr a s = false ↔ a < 0 ∨ (s.size : Int) ≤ a := by
  rw [← Bool.not_eq_true, validAddr_iff]
  omega

theorem memRead_of_valid {a : Int} {s : State} (h : validAddr a s = true) :
    memRead a s = .ok (Memory.get s.mem a.toNat) :=
  memRead_eq_ok.2 (cellAt_of_valid h)

theorem memRead_of_invalid {a : Int} {s : State} (h : validAddr a s = false) :
    memRead a s = .error { addr := a, access := .read } :=
  memRead_eq_error.2 ⟨cellAt_eq_none.2 h, rfl⟩

theorem memWrite_of_valid {a : Int} (v : Cell) {s : State} (h : validAddr a s = true) :
    memWrite a v s = .ok { s with mem := Memory.put s.mem a.toNat v } :=
  memWrite_eq_ok.2 ⟨h, rfl⟩

theorem memWrite_of_invalid {a : Int} (v : Cell) {s : State} (h : validAddr a s = false) :
    memWrite a v s = .error { addr := a, access := .write } :=
  memWrite_eq_error.2 ⟨h, rfl⟩

/-- Settles O1, by the two cases of `validAddr`. -/
theorem memReadReadsTheCellOrFails : Obligations.MemReadReadsTheCellOrFails := fun a s =>
  ⟨fun h0 hs => memRead_of_valid ((validAddr_iff a s).2 ⟨h0, hs⟩),
    fun h => memRead_of_invalid ((validAddr_eq_false_iff a s).2 h)⟩

/-- Settles O2: `memWrite_cellAt` says what every cell holds after a write. -/
theorem memWriteReplacesExactlyOneCell : Obligations.MemWriteReplacesExactlyOneCell := by
  intro a v s
  constructor
  · intro h0 hs
    have hw := memWrite_of_valid v ((validAddr_iff a s).2 ⟨h0, hs⟩)
    refine ⟨_, hw, ?_, fun b hb => ?_, rfl⟩
    · rw [memWrite_cellAt hw, if_pos rfl]
    · rw [memWrite_cellAt hw, if_neg hb]
  · exact fun h => memWrite_of_invalid v ((validAddr_eq_false_iff a s).2 h)

/-! ## The address resolver, mode by mode -/

theorem resolveRead_immediate (c : Int) (s : State) : resolveRead c .immediate s = memRead c s :=
  readThrough_immediate _ s

theorem resolveRead_position (c : Int) (s : State) :
    resolveRead c .position s = (memRead c s).bind fun a => memRead a s :=
  readThrough_position _ s

theorem resolveRead_display (c : Int) (s : State) : resolveRead c .display s = resolveRead c .position s :=
  readThrough_display _ s

theorem resolveWrite_immediate (c : Int) (s : State) : resolveWrite c .immediate s = .ok c := rfl

theorem resolveWrite_position (c : Int) (s : State) : resolveWrite c .position s = memRead c s := rfl

theorem resolveWrite_display (c : Int) (s : State) : resolveWrite c .display s = resolveWrite c .position s :=
  writeThrough_display c _

/-- Settles O3, from the equation of each mode. -/
theorem resolverReadsAndTargets : Obligations.ResolverReadsAndTargets := by
  intro c s
  refine ⟨resolveRead_immediate c s, fun a ha => ?_, fun bad hbad => ?_, resolveRead_display c s,
    resolveWrite_immediate c s, fun a ha => ?_, fun bad hbad => ?_, resolveWrite_display c s⟩
  · rw [resolveRead_position, ha]; rfl
  · rw [resolveRead_position, hbad]; rfl
  · rw [resolveWrite_position, ha]
  · rw [resolveWrite_position, hbad]

/-! ## What changes SIZE (20_memory.md R29) -/

theorem exec_size {i : Instr} {s t : State} (h : exec i s = .next t) : t.size = s.size := by
  cases i with
  | add p1 p2 p3 =>
    cases h
    exact (op3Execute_keeps ..).1
  | mul p1 p2 p3 =>
    cases h
    exact (op3Execute_keeps ..).1
  | halt =>
    cases h
    rfl

theorem cycle_size {s t : State} (h : cycle s = .next t) : t.size = s.size := by
  rcases cycle_cases s with ⟨i, -, e⟩ | ⟨op, -, e⟩ | ⟨-, e⟩ <;> rw [e] at h
  · exact exec_size h
  · cases h; rfl
  · cases h; rfl

/-- Of the host's commands only the two load commands change SIZE. -/
theorem serve_size_or_load (c : Command) (s : State) :
    (serve c s).size = s.size ∨ c = .loadClear ∨ ∃ v, c = .loadAppend v := by
  rcases serve_cases c s with ⟨r, e⟩ | ⟨hc, -⟩ | ⟨v, hc, -⟩ | ⟨a, v, m, dst, -, -, -, e⟩ | ⟨b, -, -, -, e⟩ |
    ⟨b, -, -, -, e⟩
  case inr.inl => exact .inr (.inl hc)
  case inr.inr.inl => exact .inr (.inr ⟨v, hc⟩)
  all_goals exact .inl (by simp [e])

/-- Settles O44, over the events of `step_cases`: a cycle keeps SIZE, and so does every command but the load commands. -/
theorem sizeChangesOnlyByLoads : Obligations.SizeChangesOnlyByLoads := by
  refine ⟨fun i s t h => exec_size h, fun s t h hne => ?_⟩
  rcases step_cases h with ⟨-, hcyc⟩ | ⟨-, -, rfl⟩ | ⟨hrst, -⟩ | ⟨c, out, hc, -, rfl⟩ | ⟨-, -, r, rfl⟩ |
    ⟨-, -, rfl | rfl⟩
  · exact absurd (cycle_size hcyc) hne
  · exact absurd rfl hne
  · exact .inr (.inr hrst)
  · rcases serve_size_or_load c s.afterInput with hsize | rfl | ⟨v, rfl⟩
    · exact absurd hsize hne
    · exact .inl hc
    · exact .inr (.inl ⟨v, hc⟩)
  · exact absurd rfl hne
  · exact absurd rfl hne
  · exact absurd rfl hne

end Sys2Proof.Machine

/-! PROOFS. Family 40_arithmetic: ADD and MUL follow the sequence of R64. -/

namespace Sys2Proof.Machine

/-! ## The ends of the sequence, stated by its accesses -/

section
variable {name : TraceName} {f : Int → Int → Int} {ms : OperandModes} {p1 p2 p3 : Option Cell} {s : State}

theorem op3Execute_of_error {bad : BadAccess} (h : resolveOperands ms p1 p2 p3 s = .error bad) :
    op3Execute name f ms p1 p2 p3 s = raise (.outOfRange bad) s := by
  simp only [op3Execute, h]

theorem op3Execute_of_ok {o : Op3Operands} (h : resolveOperands ms p1 p2 p3 s = .ok o) :
    op3Execute name f ms p1 p2 p3 s =
      op3Finish (f o.v1 o.v2) o.dst (emitTrace (op3Record name ms p1 p2 p3 o s.ip) s) := by
  simp only [op3Execute, h]

end

theorem op3Finish_of_memWrite_error {n dst : Int} {s : State} {bad : BadAccess}
    (hf : fitsW s.params.width n = true ∨ s.params.overflowMode = .wrap)
    (hw : memWrite dst (wrapW s.params.width n) s = .error bad) :
    op3Finish n dst s = raise (.outOfRange bad) s := by
  obtain ⟨hinvalid, rfl⟩ := memWrite_eq_error.mp hw
  exact op3Finish_bad hf hinvalid

theorem op3Finish_of_memWrite_ok {n dst : Int} {s written : State}
    (hf : fitsW s.params.width n = true ∨ s.params.overflowMode = .wrap)
    (hw : memWrite dst (wrapW s.params.width n) s = .ok written) :
    op3Finish n dst s = advance written := by
  obtain ⟨hvalid, rfl⟩ := memWrite_eq_ok.mp hw
  exact op3Finish_store hf hvalid

/-! ## The sequence on the operand cells that memory holds -/

/-- `op3Execute` on the three cells after ip. -/
def op3AtIp (name : TraceName) (f : Int → Int → Int) (ms : OperandModes) (s : State) : State :=
  op3Execute name f ms (cellAt (s.ip + 1) s) (cellAt (s.ip + 2) s) (cellAt (s.ip + 3) s) s

/-- The model's sequence is the one of R64: each clause fixes what the resolutions give, in their order, and the end of
`op3Execute` that follows from it. -/
theorem op3AtIp_followsR64 (name : TraceName) (f : Int → Int → Int) (ms : OperandModes) (s : State) :
    FollowsR64 name f ms s (op3AtIp name f ms s) where
  source1 bad h1 := op3Execute_of_error (by rw [resolveOperands_fetched, h1]; rfl)
  source2 v1 bad h1 h2 := op3Execute_of_error (by rw [resolveOperands_fetched, h1, h2]; rfl)
  target v1 v2 bad h1 h2 h3 := op3Execute_of_error (by rw [resolveOperands_fetched, h1, h2, h3]; rfl)
  result v1 v2 dst h1 h2 h3 := by
    have hfinish := op3Execute_of_ok (name := name) (f := f) (s := s) (o := ⟨v1, v2, dst⟩)
      (by rw [resolveOperands_fetched, h1, h2, h3]; rfl)
    refine ⟨_, rfl, fun hfit hfault => ?_, fun hfit => ⟨fun bad hw => ?_, fun written hw => ?_⟩⟩
    · exact hfinish.trans (op3Finish_overflow hfit hfault)
    · exact hfinish.trans (op3Finish_of_memWrite_error hfit hw)
    · exact hfinish.trans (op3Finish_of_memWrite_ok hfit hw)

theorem resolveRead_position_of_cells {c : Int} {a x : Cell} {s : State} (ha : cellAt c s = some a)
    (hx : cellAt a s = some x) : resolveRead c .position s = .ok x := by
  rw [resolveRead_position, memRead_eq_ok.2 ha]
  exact memRead_eq_ok.2 hx

theorem resolveWrite_position_of_cell {c : Int} {d : Cell} {s : State} (hd : cellAt c s = some d) :
    resolveWrite c .position s = .ok d := by
  rw [resolveWrite_position, memRead_eq_ok.2 hd]

/-- R64 at the default modes: f of the two cells the sources point at goes to the cell the destination points at, and to
no other. -/
theorem op3AtIp_allPosition_cells {name : TraceName} {f : Int → Int → Int} {ms : OperandModes} {s : State}
    {a1 a2 d x y : Cell} (hms : ms = OperandModes.allPosition)
    (h1 : cellAt (s.ip + 1) s = some a1) (h2 : cellAt (s.ip + 2) s = some a2) (h3 : cellAt (s.ip + 3) s = some d)
    (hx : cellAt a1 s = some x) (hy : cellAt a2 s = some y) (hd : validAddr d s = true)
    (hf : fitsW s.params.width (f x y) = true ∨ s.params.overflowMode = .wrap) :
    cellAt d (op3AtIp name f ms s) = some (wrapW s.params.width (f x y)) ∧
      ∀ a, a ≠ d → cellAt a (op3AtIp name f ms s) = cellAt a s := by
  subst hms
  have hr : resolveOperands OperandModes.allPosition (cellAt (s.ip + 1) s) (cellAt (s.ip + 2) s)
      (cellAt (s.ip + 3) s) s = .ok { v1 := x, v2 := y, dst := d } := by
    rw [resolveOperands_fetched]
    simp only [OperandModes.allPosition, resolveRead_position_of_cells h1 hx, resolveRead_position_of_cells h2 hy,
      resolveWrite_position_of_cell h3, Except.bind]
  rw [op3AtIp, op3Execute_stored hr hd hf]
  exact ⟨by rw [stored_cellAt _ hd, if_pos rfl], fun a ha => by rw [stored_cellAt _ hd, if_neg ha]⟩

/-! ## The step on opcodes 1 and 2 -/

theorem cycle_at_add {s : State} (hop : cellAt s.ip s = some 1) :
    cycle s = .next (op3AtIp .add (fun a b => a + b) s.params.addModes s) := by
  rw [cycle_of_decode (decode_at_add hop), exec_add, op3AtIp]

theorem cycle_at_mul {s : State} (hop : cellAt s.ip s = some 2) :
    cycle s = .next (op3AtIp .multiply (fun a b => a * b) s.params.mulModes s) := by
  rw [cycle_of_decode (decode_at_mul hop), exec_mul, op3AtIp]

theorem step_at_add {s : State} (hc : s.ctl = .running) (hi : s.inputs = []) (hop : cellAt s.ip s = some 1) :
    step s = .next (op3AtIp .add (fun a b => a + b) s.params.addModes { s with freeCount := s.freeCount + 1 }) :=
  (step_cycle hc hi).trans (cycle_at_add hop)

theorem step_at_mul {s : State} (hc : s.ctl = .running) (hi : s.inputs = []) (hop : cellAt s.ip s = some 2) :
    step s = .next (op3AtIp .multiply (fun a b => a * b) s.params.mulModes { s with freeCount := s.freeCount + 1 }) :=
  (step_cycle hc hi).trans (cycle_at_mul hop)

/-- Settles O13: the step is `op3AtIp` with + on the counted state, whose cells are those of s. -/
theorem addFollowsItsRule : Obligations.AddFollowsItsRule := fun _ hc hi hop =>
  ⟨_, step_at_add hc hi hop, op3AtIp_followsR64 _ _ _ _,
    fun _ _ _ _ _ hms h1 h2 h3 hx hy hd hf => op3AtIp_allPosition_cells hms h1 h2 h3 hx hy hd hf⟩

/-- Settles O14: the step is `op3AtIp` with * on the counted state, whose cells are those of s. -/
theorem mulFollowsItsRule : Obligations.MulFollowsItsRule := fun _ hc hi hop =>
  ⟨_, step_at_mul hc hi hop, op3AtIp_followsR64 _ _ _ _,
    fun _ _ _ _ _ hms h1 h2 h3 hx hy hd hf => op3AtIp_allPosition_cells hms h1 h2 h3 hx hy hd hf⟩

end Sys2Proof.Machine

/-! PROOFS. Family 41_halt: HALT ends the run, and the state after it lasts. -/

namespace Sys2Proof.Machine

/-- Outside a run no number of steps changes anything while the host does nothing. -/
theorem runSteps_rest {s : State} (hc : s.ctl ≠ .running) (hi : s.inputs = []) (k : Nat) :
    runSteps k s = .next s := by
  induction k with
  | zero => exact runSteps_zero s
  | succ k ih => rw [runSteps_succ (step_rest hc hi), ih]

theorem cycle_at_halt {s : State} (hop : cellAt s.ip s = some 99) : cycle s = exec .halt s :=
  cycle_of_decode (decode_at_halt hop)

theorem step_at_halt {s : State} (hc : s.ctl = .running) (hi : s.inputs = []) (hop : cellAt s.ip s = some 99) :
    step s = exec .halt { s with freeCount := s.freeCount + 1 } :=
  (step_cycle hc hi).trans (cycle_at_halt hop)

/-- HALT leaves the state in Halted with the host's inputs as they were. -/
theorem exec_halt_ends {s t : State} (h : exec .halt s = .next t) : t.ctl = .halted ∧ t.inputs = s.inputs := by
  cases h
  exact ⟨haltRun_ctl _, by rw [haltRun_inputs, emitTrace_inputs]⟩

/-- Settles O18: the next state is `exec_halt` written out by its fields, the cycle at 99 decodes to HALT, and the Halted
state it leaves lasts by `runSteps_rest`. -/
theorem haltEndsTheRun : Obligations.HaltEndsTheRun := by
  intro s
  refine ⟨exec_halt s, step_at_halt, fun t k hi h => ?_⟩
  obtain ⟨hhalted, hinputs⟩ := exec_halt_ends h
  have hnotRunning : t.ctl ≠ .running := by rw [hhalted]; decide
  exact runSteps_rest hnotRunning (hinputs.trans hi) k

end Sys2Proof.Machine

/-! PROOFS. Family 42_controller: tracing, MissingHalt, the trace records and the host's commands. -/

namespace Sys2Proof.Machine

/-! ## Tracing changes nothing the machine computes (42_controller.md R87) -/

/-- The state with another trace flag and other trace records waiting. -/
def State.retrace (b : Bool) (records : List TraceRecord) (s : State) : State :=
  { s with traceEn := b, trace := records }

theorem raise_retrace (f : Failure) (b : Bool) (records : List TraceRecord) (s : State) :
    raise f (s.retrace b records) = (raise f s).retrace b records := rfl

theorem haltRun_retrace (b : Bool) (records : List TraceRecord) (s : State) :
    haltRun (s.retrace b records) = (haltRun s).retrace b records := rfl

theorem emitTrace_retrace (r : TraceRecord) (b : Bool) (records : List TraceRecord) (s : State) :
    emitTrace r (s.retrace b records) =
      (emitTrace r s).retrace b (if b = true then records ++ [r] else records) := rfl

theorem resolveOperands_retrace (ms : OperandModes) (p1 p2 p3 : Option Cell) (b : Bool)
    (records : List TraceRecord) (s : State) :
    resolveOperands ms p1 p2 p3 (s.retrace b records) = resolveOperands ms p1 p2 p3 s := rfl

theorem fetchCells_retrace (b : Bool) (records : List TraceRecord) (s : State) :
    fetchCells (s.retrace b records) = fetchCells s := rfl

theorem advance_retrace (b : Bool) (records : List TraceRecord) (s : State) :
    advance (s.retrace b records) = (advance s).retrace b records := by
  rcases advance_cases s with ⟨h, e⟩ | ⟨h, e⟩ <;> rw [e]
  · exact if_neg (Nat.not_le.2 h)
  · exact if_pos h

theorem op3Finish_retrace (n dst : Int) (b : Bool) (records : List TraceRecord) (s : State) :
    op3Finish n dst (s.retrace b records) = (op3Finish n dst s).retrace b records := by
  rcases op3Finish_cases n dst s with ⟨hf, hm, e⟩ | ⟨hf, ⟨hv, e⟩ | ⟨hv, e⟩⟩ <;> rw [e]
  · exact op3Finish_overflow hf hm
  · exact op3Finish_bad hf hv
  · rw [← advance_retrace]
    exact op3Finish_store hf hv

/-- `out'` is `out` but for the flag `b` and for what was recorded after `records`: nothing where the flag is off. -/
def Retraced (b : Bool) (records : List TraceRecord) (out out' : State) : Prop :=
  ∃ records', out' = out.retrace b records' ∧ (b = false → records' = records)

theorem Retraced.of_untraced (b : Bool) (records : List TraceRecord) (out : State) :
    Retraced b records out (out.retrace b records) := ⟨records, rfl, fun _ => rfl⟩

/-- The records after `emitTrace` at flag `b`. -/
theorem Retraced.of_emitted (r : TraceRecord) (b : Bool) (records : List TraceRecord) (out : State) :
    Retraced b records out (out.retrace b (if b = true then records ++ [r] else records)) :=
  ⟨_, rfl, by rintro rfl; rfl⟩

theorem Retraced.trans {b : Bool} {records records' : List TraceRecord} {out out' : State}
    (h : Retraced b records' out out') (hr : b = false → records' = records) : Retraced b records out out' := by
  obtain ⟨records'', e, h'⟩ := h
  exact ⟨records'', e, fun hb => (h' hb).trans (hr hb)⟩

theorem op3Execute_retraced (name : TraceName) (f : Int → Int → Int) (ms : OperandModes) (p1 p2 p3 : Option Cell)
    (b : Bool) (records : List TraceRecord) (s : State) :
    Retraced b records (op3Execute name f ms p1 p2 p3 s) (op3Execute name f ms p1 p2 p3 (s.retrace b records)) := by
  rcases op3Execute_cases name f ms p1 p2 p3 s with ⟨bad, hr, e⟩ | ⟨o, hr, e⟩
  · rw [e, op3Execute_of_error ((resolveOperands_retrace ..).trans hr), raise_retrace]
    exact .of_untraced ..
  · rw [e, op3Execute_of_ok ((resolveOperands_retrace ..).trans hr), emitTrace_retrace, op3Finish_retrace]
    exact .of_emitted ..

theorem exec_retraced {i : Instr} {s t : State} (b : Bool) (records : List TraceRecord) (h : exec i s = .next t) :
    ∃ t', exec i (s.retrace b records) = .next t' ∧ Retraced b records t t' := by
  cases i with
  | add p1 p2 p3 =>
    cases h
    exact ⟨_, exec_add .., op3Execute_retraced ..⟩
  | mul p1 p2 p3 =>
    cases h
    exact ⟨_, exec_mul .., op3Execute_retraced ..⟩
  | halt =>
    cases h
    rw [exec_halt, emitTrace_retrace, haltRun_retrace]
    exact ⟨_, rfl, .of_emitted ..⟩

theorem cycle_of_unknownOpcode {s : State} {op : Cell} (h : decode (fetchCells s) = .error (.unknownOpcode op)) :
    cycle s = .next (raise (.unknownOpcode op) s) := by
  simp [cycle, h]

theorem cycle_of_noOpcodeCell {s : State} (h : decode (fetchCells s) = .error .noOpcodeCell) :
    cycle s = .next (raise (.outOfRange { addr := s.ip, access := .read }) s) := by
  simp [cycle, h]

theorem cycle_retraced {s t : State} (b : Bool) (records : List TraceRecord) (h : cycle s = .next t) :
    ∃ t', cycle (s.retrace b records) = .next t' ∧ Retraced b records t t' := by
  rcases cycle_cases s with ⟨i, hd, e⟩ | ⟨op, hd, e⟩ | ⟨hd, e⟩ <;> rw [e] at h <;>
    rw [← fetchCells_retrace b records] at hd
  · rw [cycle_of_decode hd]
    exact exec_retraced b records h
  · cases h
    exact ⟨_, cycle_of_unknownOpcode hd, .of_untraced ..⟩
  · cases h
    exact ⟨_, cycle_of_noOpcodeCell hd, .of_untraced ..⟩

theorem step_retraced {s t : State} (b : Bool) (records : List TraceRecord) (hi : s.inputs = [])
    (h : step s = .next t) : ∃ t', step (s.retrace b records) = .next t' ∧ Retraced b records t t' := by
  by_cases hc : s.ctl = .running
  · rw [step_cycle hc hi] at h
    rw [step_cycle (s := s.retrace b records) hc hi]
    exact cycle_retraced b records h
  · rw [step_rest hc hi] at h
    cases h
    exact ⟨_, step_rest (s := s.retrace b records) hc hi, .of_untraced ..⟩

/-! The host's plans stay empty along a run. -/

theorem exec_inputs {i : Instr} {s t : State} (h : exec i s = .next t) : t.inputs = s.inputs := by
  cases i with
  | add p1 p2 p3 =>
    cases h
    obtain ⟨-, -, -, hinputs, -⟩ := op3Execute_keeps ..
    exact hinputs
  | mul p1 p2 p3 =>
    cases h
    obtain ⟨-, -, -, hinputs, -⟩ := op3Execute_keeps ..
    exact hinputs
  | halt =>
    cases h
    rfl

theorem cycle_inputs {s t : State} (h : cycle s = .next t) : t.inputs = s.inputs := by
  rcases cycle_cases s with ⟨i, -, e⟩ | ⟨op, -, e⟩ | ⟨-, e⟩ <;> rw [e] at h
  · exact exec_inputs h
  · cases h; rfl
  · cases h; rfl

theorem step_keeps_no_input {s t : State} (hi : s.inputs = []) (h : step s = .next t) : t.inputs = [] := by
  by_cases hc : s.ctl = .running
  · rw [step_cycle hc hi] at h
    exact (cycle_inputs h).trans hi
  · rw [step_rest hc hi] at h
    cases h
    exact hi

theorem runSteps_succ_next {k : Nat} {s t : State} (h : runSteps (k + 1) s = .next t) :
    ∃ u, step s = .next u ∧ runSteps k u = .next t := by
  cases hs : step s with
  | next u => exact ⟨u, rfl, (runSteps_succ hs k).symm.trans h⟩
  | fault r => exact nomatch r
  | refused r => simp [runSteps, hs] at h

theorem runSteps_retraced {k : Nat} {s t : State} (b : Bool) (records : List TraceRecord) (hi : s.inputs = [])
    (h : runSteps k s = .next t) :
    ∃ t', runSteps k (s.retrace b records) = .next t' ∧ Retraced b records t t' := by
  induction k generalizing s records with
  | zero =>
    cases h
    exact ⟨_, rfl, .of_untraced ..⟩
  | succ k ih =>
    obtain ⟨u, hstep, hrun⟩ := runSteps_succ_next h
    obtain ⟨_, hstep', records', rfl, hrecords⟩ := step_retraced b records hi hstep
    obtain ⟨t', hrun', ht'⟩ := ih records' (step_keeps_no_input hi hstep) hrun
    exact ⟨t', (runSteps_succ hstep' k).trans hrun', ht'.trans hrecords⟩

/-- Settles O49: every step commutes with `retrace` up to the records it adds, so a run does. -/
theorem tracingChangesNothing : Obligations.TracingChangesNothing := by
  intro k s t b records hi h
  obtain ⟨_, hrun, records', rfl, hoff⟩ := runSteps_retraced b records hi h
  exact ⟨_, hrun, rfl, hoff⟩

/-! ## The trace records of a cycle (42_controller.md R86) -/

theorem op3AtIp_trace_of_ok {name : TraceName} {f : Int → Int → Int} {ms : OperandModes} {s : State} {v1 v2 : Cell}
    {dst : Int} (h1 : resolveRead (s.ip + 1) ms.m1 s = .ok v1) (h2 : resolveRead (s.ip + 2) ms.m2 s = .ok v2)
    (h3 : resolveWrite (s.ip + 3) ms.m3 s = .ok dst) :
    (op3AtIp name f ms s).trace = if s.traceEn then s.trace ++
      [op3Record name ms (cellAt (s.ip + 1) s) (cellAt (s.ip + 2) s) (cellAt (s.ip + 3) s) ⟨v1, v2, dst⟩ s.ip]
      else s.trace := by
  rw [op3AtIp, op3Execute_of_ok (o := ⟨v1, v2, dst⟩) (by rw [resolveOperands_fetched, h1, h2, h3]; rfl)]
  obtain ⟨-, -, -, -, -, htrace, -⟩ := op3Finish_keeps (f v1 v2) dst (emitTrace (op3Record name ms
    (cellAt (s.ip + 1) s) (cellAt (s.ip + 2) s) (cellAt (s.ip + 3) s) ⟨v1, v2, dst⟩ s.ip) s)
  exact htrace.trans (emitTrace_trace _ s)

/-- When one access of the resolutions fails, the operands do not resolve, whichever access is the one reported. -/
theorem resolveOperands_fetched_fails {ms : OperandModes} {s : State} {bad : BadAccess}
    (h : resolveRead (s.ip + 1) ms.m1 s = .error bad ∨ resolveRead (s.ip + 2) ms.m2 s = .error bad ∨
      resolveWrite (s.ip + 3) ms.m3 s = .error bad) :
    ∃ first, resolveOperands ms (cellAt (s.ip + 1) s) (cellAt (s.ip + 2) s) (cellAt (s.ip + 3) s) s =
      .error first := by
  rw [resolveOperands_fetched]
  cases h1 : resolveRead (s.ip + 1) ms.m1 s with
  | error bad1 => exact ⟨bad1, rfl⟩
  | ok v1 =>
    cases h2 : resolveRead (s.ip + 2) ms.m2 s with
    | error bad2 => exact ⟨bad2, rfl⟩
    | ok v2 =>
      cases h3 : resolveWrite (s.ip + 3) ms.m3 s with
      | error bad3 => exact ⟨bad3, rfl⟩
      | ok dst => simp [h1, h2, h3] at h

theorem op3AtIp_trace_of_error {name : TraceName} {f : Int → Int → Int} {ms : OperandModes} {s : State}
    {bad : BadAccess} (h : resolveRead (s.ip + 1) ms.m1 s = .error bad ∨
      resolveRead (s.ip + 2) ms.m2 s = .error bad ∨ resolveWrite (s.ip + 3) ms.m3 s = .error bad) :
    (op3AtIp name f ms s).trace = s.trace := by
  obtain ⟨first, hfirst⟩ := resolveOperands_fetched_fails h
  rw [op3AtIp, op3Execute_of_error hfirst, raise_trace]

/-- The step on opcode 1 or 2 is `op3AtIp` on the counted state, for some f. -/
theorem step_at_op3 {s t : State} {name : TraceName} {ms : OperandModes} (hc : s.ctl = .running) (hi : s.inputs = [])
    (h : step s = .next t)
    (hop : (cellAt s.ip s = some 1 ∧ name = .add ∧ ms = s.params.addModes) ∨
      (cellAt s.ip s = some 2 ∧ name = .multiply ∧ ms = s.params.mulModes)) :
    ∃ f, t = op3AtIp name f ms { s with freeCount := s.freeCount + 1 } := by
  rcases hop with ⟨hop, rfl, rfl⟩ | ⟨hop, rfl, rfl⟩
  · rw [step_at_add hc hi hop] at h
    cases h
    exact ⟨_, rfl⟩
  · rw [step_at_mul hc hi hop] at h
    cases h
    exact ⟨_, rfl⟩

theorem step_at_unknown {s : State} {op : Cell} (hc : s.ctl = .running) (hi : s.inputs = [])
    (hop : cellAt s.ip s = some op) (h1 : op ≠ 1) (h2 : op ≠ 2) (h99 : op ≠ 99) :
    step s = .next (raise (.unknownOpcode op) { s with freeCount := s.freeCount + 1 }) :=
  (step_cycle hc hi).trans (cycle_of_unknownOpcode (decode_at_unknown hop h1 h2 h99))

/-! ## RUN (42_controller.md R73 to R75) -/

theorem not_running_of_ready {s : State} (h : s.ctl = .ready) : s.ctl ≠ .running := by
  rw [h]; decide

theorem not_running_of_ended {s : State} (h : s.ctl = .halted ∨ s.ctl = .failed) : s.ctl ≠ .running := by
  rcases h with h | h <;> rw [h] <;> decide

theorem startRun_of_empty {s : State} (b : Bool) (hr : s.ctl = .ready) (hs : s.size = 0) :
    startRun b s = raise .emptyProgram { s with traceEn := b, ip := 0 } := by
  simp [startRun, hr, hs]

theorem startRun_of_cells {s : State} (b : Bool) (hr : s.ctl = .ready) (hs : 0 < s.size) :
    startRun b s = { s with traceEn := b, fail := FailRecord.clear, ip := 0, ctl := .running } := by
  simp [startRun, hr, hs.ne']

theorem startRun_of_ended {s : State} (b : Bool) (h : s.ctl = .halted ∨ s.ctl = .failed) :
    startRun b s = respond .runRejected s := by
  rcases h with h | h <;> simp [startRun, h]

/-- Settles O24: the command is `startRun`, whose case of an empty memory is the failure entry. -/
theorem emptyProgramIsRejected : Obligations.EmptyProgramIsRejected := by
  intro s b rest hr hs hi
  rw [step_command_idle (not_running_of_ready hr) hi]
  exact congrArg _ (startRun_of_empty b hr hs)

/-- Settles O27: the command is `startRun`, whose case of a memory with cells starts the run. -/
theorem runStartsAtZero : Obligations.RunStartsAtZero := by
  intro s b rest hr hs hi
  rw [step_command_idle (not_running_of_ready hr) hi]
  exact congrArg _ (startRun_of_cells b hr hs)

/-- Settles O48, by the opcode fetched: the trace of each end of the cycle, and of the RUN on an empty memory. -/
theorem traceRecordsEachInstruction : Obligations.TraceRecordsEachInstruction := by
  refine ⟨fun s t name ms hc hi h hop => ?_, fun s t hc hi h hop => ?_,
    fun s t op hc hi h hop h1 h2 h99 => ?_, fun s t b rest hr hs hi h => ?_⟩
  · obtain ⟨f, rfl⟩ := step_at_op3 hc hi h hop
    exact ⟨fun v1 v2 dst h1 h2 h3 => op3AtIp_trace_of_ok (s := { s with freeCount := s.freeCount + 1 }) h1 h2 h3,
      fun bad hbad => op3AtIp_trace_of_error (s := { s with freeCount := s.freeCount + 1 }) hbad⟩
  · rw [step_at_halt hc hi hop, exec_halt] at h
    cases h
    exact emitTrace_trace _ _
  · rw [step_at_unknown hc hi hop h1 h2 h99] at h
    cases h
    exact raise_trace _ _
  · rw [emptyProgramIsRejected s b rest hr hs hi] at h
    cases h
    rfl

/-! ## MissingHalt (42_controller.md R79, 60_exceptions.md R101) -/

/-- ADD or MUL whose result is stored: the write, then the advance. -/
theorem exec_stored {s : State} {p1 p2 p3 : Option Cell} {o : Op3Operands} {i : Instr} {ms : OperandModes} {n : Int}
    (hinstr : (i = .add p1 p2 p3 ∧ ms = s.params.addModes ∧ n = o.v1 + o.v2) ∨
      (i = .mul p1 p2 p3 ∧ ms = s.params.mulModes ∧ n = o.v1 * o.v2))
    (hr : resolveOperands ms p1 p2 p3 s = .ok o) (hd : validAddr o.dst s = true)
    (hf : fitsW s.params.width n = true ∨ s.params.overflowMode = .wrap) :
    ∃ r, exec i s = .next (advance { emitTrace r s with
      mem := Memory.put s.mem o.dst.toNat (wrapW s.params.width n) }) := by
  rcases hinstr with ⟨rfl, rfl, rfl⟩ | ⟨rfl, rfl, rfl⟩
  · exact ⟨_, by rw [exec_add, op3Execute_stored hr hd hf]⟩
  · exact ⟨_, by rw [exec_mul, op3Execute_stored hr hd hf]⟩

/-- Settles O20: the two ends of the advance after the store; the cells are those of `stored_cellAt`. -/
theorem missingHaltAfterTheWrite : Obligations.MissingHaltAfterTheWrite := by
  intro s p1 p2 p3 o i ms n hinstr hr hd hf
  obtain ⟨r, hexec⟩ := exec_stored hinstr hr hd hf
  have hcells := stored_cellAt (r := r) (wrapW s.params.width n) hd
  rcases advance_cases { emitTrace r s with mem := Memory.put s.mem o.dst.toNat (wrapW s.params.width n) } with
    ⟨hlt, e⟩ | ⟨hle, e⟩ <;> rw [e] at hexec hcells
  · exact ⟨fun h => absurd hlt (Nat.not_lt.2 h), fun _ => ⟨_, hexec, rfl, rfl, rfl⟩⟩
  · exact ⟨fun _ => ⟨_, hexec, rfl, rfl, rfl, rfl, by rw [hcells, if_pos rfl],
      fun a ha => by rw [hcells, if_neg ha]⟩, fun h => absurd hle (Nat.not_le.2 h)⟩

/-! ## Commands during a run (42_controller.md R93, R94) -/

theorem serveRunning_of_ne_status {c : Command} (h : c ≠ .status) (s : State) :
    serveRunning c s = respond .busy s := by
  cases c
  case status => exact absurd rfl h
  all_goals rfl

theorem step_busy {s : State} {c : Command} {rest : List Input} (hc : s.ctl = .running)
    (hi : s.inputs = .command c :: rest) (h : c ≠ .status) :
    step s = .next
      { s with inputs := rest, freeCount := s.freeCount + 1, responses := s.responses ++ [.busy] } := by
  rw [step_command_running hc hi, serveRunning_of_ne_status h]
  rfl

theorem step_status_running {s : State} {rest : List Input} (hc : s.ctl = .running)
    (hi : s.inputs = .command .status :: rest) :
    step s = .next
      { s with
        inputs := rest
        freeCount := s.freeCount + 1
        responses := s.responses ++ [.okStatus .running (Config.freeStatus (s.freeCount + 1))] } := by
  rw [step_command_running hc hi]
  simp only [serveRunning, status, hc]
  rfl

/-- Settles O28, by the controller state: Halted or Failed, Running, Ready. -/
theorem runIsRejectedOutsideReady : Obligations.RunIsRejectedOutsideReady := by
  intro s b rest hi
  refine ⟨fun h => ?_, fun hc => step_busy hc hi (by simp), fun hr => ?_⟩
  · rw [step_command_idle (not_running_of_ended h) hi]
    exact congrArg _ (startRun_of_ended b h)
  · rcases Nat.eq_zero_or_pos s.size with hs | hs
    · exact ⟨_, emptyProgramIsRejected s b rest hr hs hi, .inr rfl⟩
    · exact ⟨_, runStartsAtZero s b rest hr hs hi, .inl rfl⟩

/-- Settles O33: the answer of `status` outside a run and during one; the codes compute. -/
theorem statusShowsTheFields : Obligations.StatusShowsTheFields := by
  refine ⟨fun s rest hi => ⟨fun hc => ?_, fun hc => step_status_running hc hi⟩, rfl, rfl, rfl⟩
  rw [step_command_idle hc hi]
  exact congrArg _ (status_idle (s := { s with inputs := rest }) hc)

/-- Settles O34: `step_busy` for every command but STATUS, whose answer is another response. -/
theorem commandsAreBusyDuringARun : Obligations.CommandsAreBusyDuringARun := by
  intro s c rest hc hi
  refine ⟨step_busy hc hi, ?_⟩
  rintro rfl
  exact ⟨_, step_status_running hc hi, by simp⟩

/-! ## PEEK and POKE (42_controller.md R91, R92) -/

theorem peek_of_ok {a v : Cell} {m : Option AddressMode} {s : State}
    (h : resolveRead a (m.getD s.params.hostModeDefault) s = .ok v) : peek a m s = respond (.okValue v) s := by
  simp [peek, hostMode, h]

theorem peek_of_error {a : Cell} {m : Option AddressMode} {s : State} {bad : BadAccess}
    (h : resolveRead a (m.getD s.params.hostModeDefault) s = .error bad) :
    peek a m s = respond (.outOfRange bad.addr) s := by
  simp [peek, hostMode, h, respondOutOfRange]

/-- Settles O31, by what the resolver's read gives. -/
theorem peekReadsThroughTheResolver : Obligations.PeekReadsThroughTheResolver := by
  intro s a m rest hc hi
  rw [step_command_idle hc hi]
  exact ⟨fun v h => congrArg _ (peek_of_ok (s := { s with inputs := rest }) h),
    fun bad h => congrArg _ (peek_of_error (s := { s with inputs := rest }) h)⟩

section
variable {a v : Cell} {m : Option AddressMode} {s : State}

theorem poke_of_written {dst : Int} {t : State}
    (h : resolveWrite a (m.getD s.params.hostModeDefault) s = .ok dst) (hw : memWrite dst v s = .ok t) :
    poke a v m s = respond .ok t := by
  simp [poke, hostMode, h, Except.bind, hw]

theorem poke_of_invalid {dst : Int} (h : resolveWrite a (m.getD s.params.hostModeDefault) s = .ok dst)
    (hd : validAddr dst s = false) : poke a v m s = respond (.outOfRange dst) s := by
  simp [poke, hostMode, h, Except.bind, memWrite_of_invalid v hd, respondOutOfRange]

theorem poke_of_error {bad : BadAccess} (h : resolveWrite a (m.getD s.params.hostModeDefault) s = .error bad) :
    poke a v m s = respond (.outOfRange bad.addr) s := by
  simp [poke, hostMode, h, Except.bind, respondOutOfRange]

end

/-- Settles O32, by what the resolver's target is: a cell, which MemWrite replaces, no cell, or a read that failed. -/
theorem pokeWritesThroughTheResolver : Obligations.PokeWritesThroughTheResolver := by
  intro s a v m rest hc hi
  rw [step_command_idle hc hi]
  refine ⟨fun dst h => ⟨fun hd => ?_, fun hd => ?_⟩, fun bad h => ?_⟩
  · have hw := memWrite_of_valid (wrapW s.params.width v) (s := { s with inputs := rest }) hd
    have hcells := memWrite_cellAt hw
    exact ⟨_, congrArg _ (poke_of_written h hw), (hcells dst).trans (if_pos rfl),
      fun b hb => (hcells b).trans (if_neg hb), rfl⟩
  · exact congrArg _ (poke_of_invalid (s := { s with inputs := rest }) h hd)
  · exact congrArg _ (poke_of_error (s := { s with inputs := rest }) h)

/-! ## The load of an image (42_controller.md R89, R90) -/

theorem step_loadClear {s : State} {rest : List Input} (hc : s.ctl ≠ .running)
    (hi : s.inputs = .command .loadClear :: rest) :
    step s = .next (respond .ok (loadClear { s with inputs := rest })) :=
  step_command_idle hc hi

theorem cellAt_of_size_zero {s : State} (h : s.size = 0) (a : Int) : cellAt a s = none := by
  rw [cellAt_eq_none, validAddr_eq_false_iff, h]
  omega

/-- Settles O29: the fields of `loadClear`. -/
theorem loadClearEmptiesTheMachine : Obligations.LoadClearEmptiesTheMachine := fun _ _ hc hi =>
  ⟨_, step_loadClear hc hi, rfl, rfl, rfl, rfl, rfl, cellAt_of_size_zero rfl, rfl, rfl, rfl, rfl, rfl⟩

theorem loadAppend_of_room {s : State} (v : Cell) (hr : s.ctl = .ready) (hs : s.size ≠ s.params.memCap) :
    loadAppend v s = respond .ok { s with mem := Memory.put s.mem s.size v, size := s.size + 1 } := by
  simp [loadAppend, hr, hs]

theorem loadAppend_of_full {s : State} (v : Cell) (hr : s.ctl = .ready) (hs : s.size = s.params.memCap) :
    loadAppend v s = respond .loadTooLarge s := by
  simp [loadAppend, hr, hs]

theorem loadAppend_of_ended {s : State} (v : Cell) (h : s.ctl = .halted ∨ s.ctl = .failed) :
    loadAppend v s = respond .notLoading s := by
  rcases h with h | h <;> simp [loadAppend, h]

/-- The state a LOAD_APPEND of v below MEM_CAP leaves, the later inputs being `rest`. -/
def appended (v : Cell) (rest : List Input) (s : State) : State :=
  respond .ok { s with inputs := rest, mem := Memory.put s.mem s.size (wrapW s.params.width v), size := s.size + 1 }

theorem step_loadAppend_of_room {s : State} {v : Cell} {rest : List Input}
    (hi : s.inputs = .command (.loadAppend v) :: rest) (hr : s.ctl = .ready) (hs : s.size ≠ s.params.memCap) :
    step s = .next (appended v rest s) := by
  rw [step_command_idle (not_running_of_ready hr) hi]
  exact congrArg _ (loadAppend_of_room (s := { s with inputs := rest }) _ hr hs)

theorem appended_size (v : Cell) (rest : List Input) (s : State) : (appended v rest s).size = s.size + 1 := rfl

/-- The appended cell exists now and holds the argument; every other address is as it was. -/
theorem appended_cellAt (v : Cell) (rest : List Input) (s : State) (a : Int) :
    cellAt a (appended v rest s) = if a = s.size then some (wrapW s.params.width v) else cellAt a s := by
  split
  next h =>
    subst h
    exact cellAt_eq_some.2 ⟨by rw [validAddr_iff, appended_size]; omega, Memory.get_put_same ..⟩
  next h =>
    cases hv : validAddr a s
    · rw [cellAt_eq_none.2 hv, cellAt_eq_none, validAddr_eq_false_iff, appended_size]
      rw [validAddr_eq_false_iff] at hv
      omega
    · rw [cellAt_of_valid hv, cellAt_eq_some, validAddr_iff, appended_size]
      rw [validAddr_iff] at hv
      exact ⟨by omega, Memory.get_put_other _ _ (by omega)⟩

/-- The state after `image` is appended cell by cell and the host has no more to say. -/
def appendedAll (image : List Cell) (s : State) : State :=
  { s with
    inputs := []
    mem := Memory.putAll s.mem s.size image
    size := s.size + image.length
    responses := s.responses ++ List.replicate image.length .ok }

theorem appendedAll_nil {s : State} (hi : s.inputs = []) : appendedAll [] s = s := by
  simp [appendedAll, Memory.putAll, ← hi]

/-- Appending a cell, then the others, is appending them all. -/
theorem appendedAll_appended {v : Cell} (vs : List Cell) (rest : List Input) {s : State}
    (hv : wrapW s.params.width v = v) : appendedAll vs (appended v rest s) = appendedAll (v :: vs) s := by
  simp [appendedAll, appended, respond, Memory.putAll, hv, List.replicate_succ, Nat.add_assoc, Nat.add_comm 1]

theorem runSteps_loadAppends {image : List Cell} {s : State} (hr : s.ctl = .ready)
    (hi : s.inputs = image.map fun v => .command (.loadAppend v)) (hcap : s.size + image.length ≤ s.params.memCap)
    (hw : ∀ v ∈ image, wrapW s.params.width v = v) :
    runSteps image.length s = .next (appendedAll image s) := by
  induction image generalizing s with
  | nil => rw [appendedAll_nil hi]; rfl
  | cons v vs ih =>
    rw [List.length_cons] at hcap ⊢
    rw [runSteps_succ (step_loadAppend_of_room hi hr (by omega)), ← appendedAll_appended vs _ (hw v List.mem_cons_self)]
    have hroom : s.size + 1 + vs.length ≤ s.params.memCap := by omega
    exact ih hr rfl hroom fun x hx => hw x (List.mem_cons_of_mem v hx)

/-- A whole load from any state outside a run (42_controller.md R90). -/
theorem runSteps_loadImage {image : List Cell} {s : State} (hc : s.ctl ≠ .running)
    (hcap : image.length ≤ s.params.memCap) (hw : ∀ v ∈ image, wrapW s.params.width v = v) :
    runSteps (image.length + 1) { s with inputs := loadImage image } =
      .next (appendedAll image (respond .ok (loadClear s))) := by
  rw [runSteps_succ (step_loadClear (s := { s with inputs := loadImage image }) hc rfl)]
  exact runSteps_loadAppends rfl rfl ((Nat.zero_add _).trans_le hcap) hw

theorem loaded_cellAt (image : List Cell) (s : State) (i : Nat) :
    cellAt i (appendedAll image (respond .ok (loadClear s))) = image[i]? := by
  have hmem : (appendedAll image (respond .ok (loadClear s))).mem = Memory.putAll [] 0 image := rfl
  have hsize : (appendedAll image (respond .ok (loadClear s))).size = image.length := Nat.zero_add _
  rw [cellAt_natCast, hmem, hsize, Memory.get_putAll]
  split
  next h => simp [h]
  next h => exact (List.getElem?_eq_none (Nat.not_lt.1 h)).symm

/-- Settles O30: one LOAD_APPEND by its three cases, a whole load by induction on the image. -/
theorem loadAppendBuildsTheImage : Obligations.LoadAppendBuildsTheImage := by
  refine ⟨fun s v rest hi => ⟨fun hr hs => ?_, fun hr hs => ?_, fun h => ?_⟩,
    fun s s' image hc hc' hparams hcap hwidth hfits => ?_⟩
  · exact ⟨_, step_loadAppend_of_room hi hr hs, rfl, (appended_cellAt v rest s _).trans (if_pos rfl),
      fun a ha => (appended_cellAt v rest s a).trans (if_neg ha), rfl⟩
  · rw [step_command_idle (not_running_of_ready hr) hi]
    exact congrArg _ (loadAppend_of_full (s := { s with inputs := rest }) _ hr hs)
  · rw [step_command_idle (not_running_of_ended h) hi]
    exact congrArg _ (loadAppend_of_ended (s := { s with inputs := rest }) _ h)
  · have hw : ∀ v ∈ image, wrapW s.params.width v = v := fun v hv => wrapW_of_fitsW hwidth (hfits v hv)
    refine ⟨_, _, runSteps_loadImage hc hcap hw, runSteps_loadImage hc' (by rwa [hparams]) (by rwa [hparams]), rfl,
      Nat.zero_add _, loaded_cellAt image s, ?_, rfl, rfl⟩
    simp [appendedAll, List.replicate_succ]

end Sys2Proof.Machine

/-! PROOFS. Family 60_exceptions: the failures of a run, the failure entry, and what is no failure. -/

namespace Sys2Proof.Machine

/-! ## ADD and MUL by their shared sequence -/

/-- ADD and MUL are the sequence of R64 with their own modes and their own f. -/
theorem exec_op3 {i : Instr} {p1 p2 p3 : Option Cell} {ms : OperandModes} {f : Int → Int → Int} {s : State}
    (hinstr : (i = .add p1 p2 p3 ∧ ms = s.params.addModes ∧ f = fun a b => a + b) ∨
      (i = .mul p1 p2 p3 ∧ ms = s.params.mulModes ∧ f = fun a b => a * b)) :
    ∃ name, exec i s = .next (op3Execute name f ms p1 p2 p3 s) := by
  rcases hinstr with ⟨rfl, rfl, rfl⟩ | ⟨rfl, rfl, rfl⟩
  · exact ⟨_, exec_add p1 p2 p3 s⟩
  · exact ⟨_, exec_mul p1 p2 p3 s⟩

/-- The instruction a fetch decodes to has the cells after ip for its operands. -/
theorem decode_fetched_cases {s : State} {i : Instr} (h : decode (fetchCells s) = .ok i) :
    i = .add (cellAt (s.ip + 1) s) (cellAt (s.ip + 2) s) (cellAt (s.ip + 3) s) ∨
    i = .mul (cellAt (s.ip + 1) s) (cellAt (s.ip + 2) s) (cellAt (s.ip + 3) s) ∨ i = .halt := by
  have hhead := fetchCells_head s
  rcases decode_cases (fetchCells s) with ⟨-, e⟩ | ⟨ps, hf, -⟩ | ⟨ps, hf, -⟩ | ⟨ps, -, e⟩ | ⟨op, ps, -, -, -, -, e⟩
  · rw [e] at h; cases h
  · rw [hf] at hhead
    rw [decode_at_add hhead.symm] at h
    cases h
    exact .inl rfl
  · rw [hf] at hhead
    rw [decode_at_mul hhead.symm] at h
    cases h
    exact .inr (.inl rfl)
  · rw [e] at h
    cases h
    exact .inr (.inr rfl)
  · rw [e] at h; cases h

/-! ## OutOfRange (60_exceptions.md R100) -/

/-- The access that stops the resolutions is a read outside memory. -/
theorem resolveOperands_fetched_error {ms : OperandModes} {s : State} {bad : BadAccess}
    (h : resolveOperands ms (cellAt (s.ip + 1) s) (cellAt (s.ip + 2) s) (cellAt (s.ip + 3) s) s = .error bad) :
    bad.access = .read ∧ validAddr bad.addr s = false := by
  have hread : ∀ {c : Int} {m : AddressMode}, resolveRead c m s = .error bad →
      bad.access = .read ∧ validAddr bad.addr s = false := fun he =>
    have ⟨haccess, hinvalid, _⟩ := resolveRead_error he
    ⟨haccess, hinvalid⟩
  rw [resolveOperands_fetched] at h
  cases h1 : resolveRead (s.ip + 1) ms.m1 s with
  | error bad1 =>
    rw [h1] at h
    cases h
    exact hread h1
  | ok v1 =>
    cases h2 : resolveRead (s.ip + 2) ms.m2 s with
    | error bad2 =>
      rw [h1, h2] at h
      cases h
      exact hread h2
    | ok v2 =>
      cases h3 : resolveWrite (s.ip + 3) ms.m3 s with
      | error bad3 =>
        rw [h1, h2, h3] at h
        cases h
        exact hread ((resolveRead_immediate _ s).trans (resolveWrite_error h3))
      | ok dst =>
        rw [h1, h2, h3] at h
        cases h

/-- Settles O21: the ends of `op3Execute` where an access fails, a read by `resolveOperands_fetched_error` and the write
by `op3Finish_bad`. -/
theorem outOfRangeIsReported : Obligations.OutOfRangeIsReported := by
  intro s p1 p2 p3 i ms f hdecode hinstr
  obtain ⟨name, hexec⟩ := exec_op3 hinstr
  refine ⟨fun bad hr => ?_, fun o hr hdst hfit => ?_⟩
  · rw [op3Execute_of_error hr] at hexec
    have hcells : p1 = cellAt (s.ip + 1) s ∧ p2 = cellAt (s.ip + 2) s ∧ p3 = cellAt (s.ip + 3) s := by
      rcases hinstr with ⟨rfl, -, -⟩ | ⟨rfl, -, -⟩ <;> simpa using decode_fetched_cases hdecode
    obtain ⟨rfl, rfl, rfl⟩ := hcells
    obtain ⟨haccess, hinvalid⟩ := resolveOperands_fetched_error hr
    exact ⟨(validAddr_eq_false_iff _ _).1 hinvalid, _, hexec, rfl, by rw [← haccess]; rfl, rfl, rfl⟩
  · have hinvalid := (validAddr_eq_false_iff _ _).2 hdst
    rw [op3Execute_of_ok hr, op3Finish_bad (s := emitTrace _ s) hfit hinvalid] at hexec
    exact ⟨_, hexec, rfl, rfl, rfl, rfl⟩

/-! ## Overflow (60_exceptions.md R102) -/

theorem advance_fail_of_overflow {s : State} (h : (advance s).fail.kind = .overflow) : (advance s).fail = s.fail := by
  rcases advance_cases s with ⟨-, e⟩ | ⟨-, e⟩ <;> rw [e] at h ⊢
  cases h

/-- Under Wrap, or when the result fits, an Overflow in FAIL was there before the end of the sequence. -/
theorem op3Finish_fail_of_overflow {n dst : Int} {s : State}
    (hfit : fitsW s.params.width n = true ∨ s.params.overflowMode = .wrap)
    (h : (op3Finish n dst s).fail.kind = .overflow) : (op3Finish n dst s).fail = s.fail := by
  cases hd : validAddr dst s
  · rw [op3Finish_bad hfit hd] at h
    cases h
  · rw [op3Finish_store hfit hd] at h ⊢
    exact advance_fail_of_overflow h

/-- Settles O22: the end of the sequence is the failure entry under Fault and a result that does not fit, and raises no
Overflow otherwise. -/
theorem overflowOnlyInFaultMode : Obligations.OverflowOnlyInFaultMode := by
  intro s p1 p2 p3 o i ms n hinstr hr
  obtain ⟨f, hn, hinstr⟩ : ∃ f : Int → Int → Int, n = f o.v1 o.v2 ∧
      ((i = .add p1 p2 p3 ∧ ms = s.params.addModes ∧ f = fun a b => a + b) ∨
        (i = .mul p1 p2 p3 ∧ ms = s.params.mulModes ∧ f = fun a b => a * b)) := by
    rcases hinstr with ⟨hi, hms, hn⟩ | ⟨hi, hms, hn⟩
    · exact ⟨_, hn, .inl ⟨hi, hms, rfl⟩⟩
    · exact ⟨_, hn, .inr ⟨hi, hms, rfl⟩⟩
  obtain ⟨name, hexec⟩ := exec_op3 hinstr
  rw [op3Execute_of_ok hr, ← hn] at hexec
  refine ⟨fun hfault hfit => ?_, fun hfit => ?_⟩
  · rw [op3Finish_overflow (s := emitTrace _ s) hfit hfault] at hexec
    exact ⟨_, hexec, rfl, rfl, rfl, rfl⟩
  · exact ⟨_, hexec, op3Finish_fail_of_overflow hfit.symm⟩

/-! ## Command responses (60_exceptions.md R104) -/

/-- The responses that turn a command away. -/
def Response.Refuses (r : Response) : Prop :=
  (∃ a, r = .outOfRange a) ∨ r = .busy ∨ r = .runRejected ∨ r = .loadTooLarge ∨ r = .notLoading

/-- A command that gets one of these answers does nothing but answer: every other end of `serve_cases` answers OK or
RunFailed, or does not answer yet. -/
theorem serve_of_refusing_response {c : Command} {s : State} {r : Response}
    (h : (serve c s).responses = s.responses ++ [r]) (hr : r.Refuses) : serve c s = respond r s := by
  rcases serve_cases c s with ⟨r', e⟩ | ⟨-, -, e⟩ | ⟨v, -, -, -, e⟩ | ⟨a, v, m, dst, -, -, -, e⟩ | ⟨b, -, -, -, e⟩ |
    ⟨b, -, -, -, e⟩ <;> rw [e] at h
  case inl =>
    obtain rfl : r' = r := by simpa using h
    exact e
  case inr.inr.inr.inr.inr => simp at h
  all_goals
    obtain rfl := List.singleton_inj.1 (List.append_cancel_left h)
    simp [Response.Refuses] at hr

/-- Settles O35: the step is `serve`, which does nothing but answer by `serve_of_refusing_response`. -/
theorem commandResponsesAreNotFailures : Obligations.CommandResponsesAreNotFailures := by
  intro s t c rest r hi hstep hresp hr
  rw [step_command hi] at hstep
  cases hstep
  rw [serve_of_refusing_response hresp hr]
  exact ⟨rfl, rfl, rfl⟩

/-! ## UnknownOpcode and the failure entry (60_exceptions.md R99, R105) -/

/-- Settles O23: `step_at_unknown`, with the failure entry written out by its fields. -/
theorem unknownOpcodeFailsTheRun : Obligations.UnknownOpcodeFailsTheRun :=
  fun _ _ hc hi hop h1 h2 h99 => step_at_unknown hc hi hop h1 h2 h99

theorem record_opcode_of_kind_ne (f : Failure) (ip : Nat) (h : (f.record ip).kind ≠ .unknownOpcode) :
    (f.record ip).opcode = 0 := by
  cases f
  case unknownOpcode => exact absurd rfl h
  all_goals rfl

theorem record_access_of_kind_ne (f : Failure) (ip : Nat) (h : (f.record ip).kind ≠ .outOfRange) :
    (f.record ip).addr = 0 ∧ (f.record ip).access = .none := by
  cases f
  case outOfRange => exact absurd rfl h
  all_goals exact ⟨rfl, rfl⟩

/-- Settles O25: the frame is `raise` itself, and the fields of FAIL are those of the failure's record. -/
theorem failureEntryWritesFailAndStops : Obligations.FailureEntryWritesFailAndStops := by
  refine fun f s => ⟨rfl, record_ip f s.ip, ?_, ?_, ?_, ?_, ?_, record_opcode_of_kind_ne f s.ip,
    record_access_of_kind_ne f s.ip⟩
  · rintro op rfl; exact ⟨rfl, rfl⟩
  · rintro bad rfl; exact ⟨rfl, rfl, rfl⟩
  · rintro rfl; rfl
  · rintro rfl; rfl
  · rintro rfl; rfl

/-! ## Idling (60_exceptions.md R114) -/

/-- Settles O42: `runSteps_rest`, for every state that is not Running. -/
theorem idleStatesKeepEverything : Obligations.IdleStatesKeepEverything :=
  fun k _ hc hi => runSteps_rest hc hi k

end Sys2Proof.Machine

/-! PROOFS. Family 70_reset_and_hazards: reset, and what ends a run from outside. -/

namespace Sys2Proof.Machine

/-! ## Reset (70_reset_and_hazards.md R115) -/

theorem step_rst {s : State} {rest : List Input} (hi : s.inputs = .rst :: rest) :
    step s = .next (assertReset { s.countStep with inputs := rest }) :=
  step_of_input hi

/-! ## What ends a run from outside (70_reset_and_hazards.md R116) -/

theorem serve_keeps_running {s : State} (h : s.ctl = .running) (c : Command) : (serve c s).ctl = .running := by
  rw [serve_running h]
  rcases serveRunning_cases c s h with e | e <;> rw [e, respond_ctl, h]

/-- A step of a run that is neither a cycle nor a reset goes on with the run: a command only gets an answer, and taking a
response or a trace record leaves the controller alone. -/
theorem step_keeps_running {s t : State} (hc : s.ctl = .running) (h : step s = .next t) (hdue : ¬ cycleDue s)
    (hrst : s.inputs.head? ≠ some .rst) : t.ctl = .running := by
  rcases step_cases h with ⟨hd, -⟩ | ⟨-, -, rfl⟩ | ⟨hr, -⟩ | ⟨c, out, -, -, rfl⟩ | ⟨-, -, r, rfl⟩ |
    ⟨-, -, rfl | rfl⟩
  · exact absurd hd hdue
  · exact hc
  · exact absurd hr hrst
  · exact serve_keeps_running (s := s.afterInput) hc c
  · exact hc
  · exact hc
  · exact hc

/-- Settles O40: the fields of `assertReset`, which a RUN finds empty, and `step_keeps_running`. -/
theorem resetPutsEveryFieldAtItsValue : Obligations.ResetPutsEveryFieldAtItsValue := by
  refine ⟨fun s rest hi => ⟨_, step_rst hi, rfl, rfl, rfl, rfl, cellAt_of_size_zero rfl, rfl, rfl, rfl, rfl, rfl, rfl,
    fun b more hmore => ⟨_, emptyProgramIsRejected _ b more rfl rfl hmore, rfl, rfl⟩⟩, fun s t hc h hended => ?_⟩
  by_contra hneither
  obtain ⟨hdue, hrst⟩ := not_or.1 hneither
  exact hended (step_keeps_running hc h hdue hrst)

end Sys2Proof.Machine

/-! PROOFS. Family other, the encoding: the decoder and the encoder undo each other (30_encoding.md). -/

namespace Sys2Proof

/-! ## The operand cells and the cut by the end of memory -/

/-- The end of memory cuts the operands in one of four places (20_memory.md R28). -/
theorem operands_cut {p1 p2 p3 : Option Cell} (h : (operandOrderOk p1 p2 && operandOrderOk p2 p3) = true) :
    (p1 = none ∧ p2 = none ∧ p3 = none) ∨ (∃ a, p1 = some a ∧ p2 = none ∧ p3 = none) ∨
    (∃ a b, p1 = some a ∧ p2 = some b ∧ p3 = none) ∨ ∃ a b c, p1 = some a ∧ p2 = some b ∧ p3 = some c := by
  cases p1 <;> cases p2 <;> cases p3 <;> simp [operandOrderOk] at h ⊢

/-- The operand cells are found again in their places, up to the cut. -/
theorem operandCells_getElem? {p1 p2 p3 : Option Cell} (h : (operandOrderOk p1 p2 && operandOrderOk p2 p3) = true) :
    (operandCells p1 p2 p3)[0]? = p1 ∧ (operandCells p1 p2 p3)[1]? = p2 ∧ (operandCells p1 p2 p3)[2]? = p3 := by
  rcases operands_cut h with ⟨rfl, rfl, rfl⟩ | ⟨a, rfl, rfl, rfl⟩ | ⟨a, b, rfl, rfl, rfl⟩ | ⟨a, b, c, rfl, rfl, rfl⟩
  all_goals exact ⟨rfl, rfl, rfl⟩

/-- Three operand cells are found in their places whatever cells follow. -/
theorem operandCells_append_getElem? {p1 p2 p3 : Option Cell} (rest : List Cell)
    (h : (p1.isSome && p2.isSome && p3.isSome) = true) :
    (operandCells p1 p2 p3 ++ rest)[0]? = p1 ∧ (operandCells p1 p2 p3 ++ rest)[1]? = p2 ∧
      (operandCells p1 p2 p3 ++ rest)[2]? = p3 := by
  simp only [Bool.and_eq_true, Option.isSome_iff_exists] at h
  obtain ⟨⟨⟨a, rfl⟩, b, rfl⟩, c, rfl⟩ := h
  exact ⟨rfl, rfl, rfl⟩

/-- The operand cells of what is decoded from `ps` are its first three, as many as there are. -/
theorem operandCells_of_getElem? (ps : List Cell) : operandCells ps[0]? ps[1]? ps[2]? = ps.take 3 := by
  match ps with
  | [] => rfl
  | [_] => rfl
  | [_, _] => rfl
  | _ :: _ :: _ :: _ => rfl

/-- A list has no cell after a missing one. -/
theorem operandOrderOk_getElem? (ps : List Cell) (k : Nat) : operandOrderOk ps[k]? ps[k + 1]? = true := by
  simp only [operandOrderOk, Bool.or_eq_true, Option.isNone_iff_eq_none, List.getElem?_eq_none_iff, isSome_getElem?]
  rcases Nat.lt_or_ge k ps.length with h | h
  · exact .inl (by simpa using h)
  · exact .inr (by omega)

theorem operandOrderOk_decoded (ps : List Cell) :
    (operandOrderOk ps[0]? ps[1]? && operandOrderOk ps[1]? ps[2]?) = true := by
  rw [operandOrderOk_getElem? ps 0, operandOrderOk_getElem? ps 1]
  rfl

/-! ## The round trips -/

theorem decode_encode {i : Instr} (h : WellFormed i) : decode (encode i) = .ok i := by
  cases i with
  | add p1 p2 p3 =>
    obtain ⟨h1, h2, h3⟩ := operandCells_getElem? h
    rw [encode, decode_add, h1, h2, h3]
  | mul p1 p2 p3 =>
    obtain ⟨h1, h2, h3⟩ := operandCells_getElem? h
    rw [encode, decode_mul, h1, h2, h3]
  | halt => exact decode_halt []

theorem decode_encode_append {i : Instr} (h : Whole i) (rest : List Cell) : decode (encode i ++ rest) = .ok i := by
  cases i with
  | add p1 p2 p3 =>
    obtain ⟨h1, h2, h3⟩ := operandCells_append_getElem? rest h
    rw [encode, List.cons_append, decode_add, h1, h2, h3]
  | mul p1 p2 p3 =>
    obtain ⟨h1, h2, h3⟩ := operandCells_append_getElem? rest h
    rw [encode, List.cons_append, decode_mul, h1, h2, h3]
  | halt => exact decode_halt rest

/-- Settles O7, for each instruction by the places of its operand cells. -/
theorem decodeUndoesEncode : Obligations.DecodeUndoesEncode :=
  fun _ hwf => ⟨decode_encode hwf, decode_encode_append⟩

/-- Settles O8, over the answers of the decoder: the operand cells of each are the first three after the opcode. -/
theorem encodeUndoesDecode : Obligations.EncodeUndoesDecode := by
  intro cells i h
  rcases decode_cases cells with ⟨-, e⟩ | ⟨ps, rfl, e⟩ | ⟨ps, rfl, e⟩ | ⟨ps, rfl, e⟩ | ⟨op, ps, -, -, -, -, e⟩ <;>
    rw [e] at h <;> cases h
  · exact ⟨operandOrderOk_decoded ps, congrArg (1 :: ·) (operandCells_of_getElem? ps)⟩
  · exact ⟨operandOrderOk_decoded ps, congrArg (2 :: ·) (operandCells_of_getElem? ps)⟩
  · exact ⟨rfl, rfl⟩

/-- Settles O9, over the answers of the decoder to a list with an opcode cell. -/
theorem onlyThreeOpcodesDecode : Obligations.OnlyThreeOpcodesDecode := by
  intro op rest
  refine ⟨fun i h => ?_, ⟨fun ⟨i, h⟩ => ?_, ?_⟩, decode_unknown rest⟩
  · rcases decode_cases (op :: rest) with ⟨e, -⟩ | ⟨ps, hc, e⟩ | ⟨ps, hc, e⟩ | ⟨ps, hc, e⟩ | ⟨o, ps, -, -, -, -, e⟩
    · cases e
    all_goals rw [e] at h; cases h
    all_goals exact (List.cons.inj hc).1.symm
  · by_contra hne
    obtain ⟨h1, h2, h99⟩ : op ≠ 1 ∧ op ≠ 2 ∧ op ≠ 99 := by simpa using hne
    rw [decode_unknown rest h1 h2 h99] at h
    cases h
  · rintro (rfl | rfl | rfl)
    · exact ⟨_, decode_add rest⟩
    · exact ⟨_, decode_mul rest⟩
    · exact ⟨_, decode_halt rest⟩

/-- Settles O6: each word is one of the decoder's answers. -/
theorem tableWordsDecode : Obligations.TableWordsDecode :=
  ⟨decode_add _, decode_mul _, decode_halt _, decode_add _,
    decode_unknown _ (by decide) (by decide) (by decide)⟩

/-- Settles O10: the cells are those of `encode`, and `assemble` is a `flatMap`. -/
theorem assemblyCellsAreTheEncodings : Obligations.AssemblyCellsAreTheEncodings :=
  fun _ _ _ _ _ _ => ⟨rfl, rfl, rfl, rfl, List.flatMap_append⟩

end Sys2Proof

/-! PROOFS. Family other, memory and arithmetic: the resolver's round trip, the W-bit residue, and the ends of ADD and
MUL (20_memory.md, 00_scope.md section 5, 40_arithmetic.md). -/

namespace Sys2Proof.Machine

/-- Settles O4: the written cell reads as written, whatever gave its address. -/
theorem resolvedWriteIsReadBack : Obligations.ResolvedWriteIsReadBack :=
  fun _ _ _ _ _ a _ hw => memRead_eq_ok.2 ((memWrite_cellAt hw a).trans (if_pos rfl))

/-! ## The W-bit residue -/

theorem wrapW_sub_self_dvd (w : Nat) (n : Int) : 2 ^ w ∣ wrapW w n - n := by
  have h : ((2 ^ w : Nat) : Int) ∣ wrapW w n - n := Int.dvd_bmod_sub_self
  exact_mod_cast h

theorem wrapW_congr {w : Nat} {m n : Int} (h : 2 ^ w ∣ m - n) : wrapW w m = wrapW w n := by
  have h' : ((2 ^ w : Nat) : Int) ∣ m - n := by exact_mod_cast h
  exact Int.bmod_eq_bmod_iff_bmod_sub_eq_zero.2 (Int.dvd_iff_bmod_eq_zero.1 h')

theorem fitsW_iff_wrapW_eq {w : Nat} (hw : 1 ≤ w) (n : Int) : fitsW w n = true ↔ wrapW w n = n :=
  ⟨wrapW_of_fitsW hw, fun h => h ▸ fitsW_wrapW hw n⟩

/-- Settles O5: congruent integers have one residue, and a W-bit value is its own. -/
theorem wrapIsTheResidueAndFitsIsTheRange : Obligations.WrapIsTheResidueAndFitsIsTheRange := by
  intro w n hw
  obtain ⟨hlo, hhi⟩ := (fitsW_iff w _).1 (fitsW_wrapW hw n)
  refine ⟨wrapW_sub_self_dvd w n, hlo, hhi, fun v hv hvlo hvhi => ?_, fitsW_iff w n, fitsW_iff_wrapW_eq hw n⟩
  calc v = wrapW w v := (wrapW_of_fitsW hw ((fitsW_iff w v).2 ⟨hvlo, hvhi⟩)).symm
    _ = wrapW w n := wrapW_congr hv

/-! ## The ends of the sequence of ADD and MUL -/

/-- ADD and MUL are the sequence of R64, with their own modes. -/
theorem exec_op3_of_modes {i : Instr} {p1 p2 p3 : Option Cell} {ms : OperandModes} {s : State}
    (hinstr : (i = .add p1 p2 p3 ∧ ms = s.params.addModes) ∨ (i = .mul p1 p2 p3 ∧ ms = s.params.mulModes)) :
    ∃ name f, exec i s = .next (op3Execute name f ms p1 p2 p3 s) := by
  rcases hinstr with ⟨rfl, rfl⟩ | ⟨rfl, rfl⟩
  · exact ⟨_, _, exec_add p1 p2 p3 s⟩
  · exact ⟨_, _, exec_mul p1 p2 p3 s⟩

theorem advance_of_lt {s : State} (h : s.ip + 4 < s.size) : advance s = { s with ip := s.ip + 4 } :=
  if_neg (Nat.not_le.2 h)

theorem advance_of_le {s : State} (h : s.size ≤ s.ip + 4) :
    advance s = raise .missingHalt { s with ip := s.ip + 4 } :=
  if_pos h

section
variable {name : TraceName} {f : Int → Int → Int} {ms : OperandModes} {p1 p2 p3 : Option Cell} {s : State}
  {o : Op3Operands}

theorem op3Execute_of_overflow (hr : resolveOperands ms p1 p2 p3 s = .ok o) (hm : s.params.overflowMode = .fault)
    (hf : fitsW s.params.width (f o.v1 o.v2) = false) :
    op3Execute name f ms p1 p2 p3 s = raise .overflow (emitTrace (op3Record name ms p1 p2 p3 o s.ip) s) :=
  (op3Execute_of_ok hr).trans (op3Finish_overflow (s := emitTrace _ s) hf hm)

theorem op3Execute_of_badTarget (hr : resolveOperands ms p1 p2 p3 s = .ok o) (hd : validAddr o.dst s = false)
    (hf : fitsW s.params.width (f o.v1 o.v2) = true ∨ s.params.overflowMode = .wrap) :
    op3Execute name f ms p1 p2 p3 s =
      raise (.outOfRange { addr := o.dst, access := .write }) (emitTrace (op3Record name ms p1 p2 p3 o s.ip) s) :=
  (op3Execute_of_ok hr).trans (op3Finish_bad (s := emitTrace _ s) hf hd)

theorem op3Execute_stored_cellAt (hr : resolveOperands ms p1 p2 p3 s = .ok o) (hd : validAddr o.dst s = true)
    (hf : fitsW s.params.width (f o.v1 o.v2) = true ∨ s.params.overflowMode = .wrap) (a : Int) :
    cellAt a (op3Execute name f ms p1 p2 p3 s) =
      if a = o.dst then some (wrapW s.params.width (f o.v1 o.v2)) else cellAt a s := by
  rw [op3Execute_stored hr hd hf, stored_cellAt _ hd]

/-- The sequence completes: the result is stored, and there is a cell to go on at. -/
theorem op3Execute_completes (hr : resolveOperands ms p1 p2 p3 s = .ok o) (hd : validAddr o.dst s = true)
    (hf : fitsW s.params.width (f o.v1 o.v2) = true ∨ s.params.overflowMode = .wrap) (hlt : s.ip + 4 < s.size) :
    op3Execute name f ms p1 p2 p3 s =
      { emitTrace (op3Record name ms p1 p2 p3 o s.ip) s with
        ip := s.ip + 4
        mem := Memory.put s.mem o.dst.toNat (wrapW s.params.width (f o.v1 o.v2)) } :=
  (op3Execute_stored hr hd hf).trans
    (advance_of_lt (s := { emitTrace _ s with mem := Memory.put s.mem o.dst.toNat _ }) hlt)

/-- The completed sequence, field by field. -/
theorem op3Execute_completed_fields {t : State} (ht : op3Execute name f ms p1 p2 p3 s = t)
    (hr : resolveOperands ms p1 p2 p3 s = .ok o) (hd : validAddr o.dst s = true)
    (hf : fitsW s.params.width (f o.v1 o.v2) = true ∨ s.params.overflowMode = .wrap) (hlt : s.ip + 4 < s.size) :
    cellAt o.dst t = some (wrapW s.params.width (f o.v1 o.v2)) ∧ (∀ a, a ≠ o.dst → cellAt a t = cellAt a s) ∧
      t.trace = (if s.traceEn then s.trace ++ [op3Record name ms p1 p2 p3 o s.ip] else s.trace) ∧
      t = { s with ip := s.ip + 4, mem := t.mem, trace := t.trace } := by
  have hcells := op3Execute_stored_cellAt (name := name) hr hd hf
  rw [ht] at hcells
  rw [op3Execute_completes hr hd hf hlt] at ht
  subst ht
  exact ⟨(hcells _).trans (if_pos rfl), fun a ha => (hcells a).trans (if_neg ha), rfl, rfl⟩

/-- The sequence leaves every cell but its destination as it was, however it ends. -/
theorem op3Execute_cellAt_of_ne (hr : resolveOperands ms p1 p2 p3 s = .ok o) {a : Int} (ha : a ≠ o.dst) :
    cellAt a (op3Execute name f ms p1 p2 p3 s) = cellAt a s := by
  rcases op3Execute_ends name f ms p1 p2 p3 s with ⟨bad, hr', -⟩ | ⟨o', hr', ⟨-, -, e⟩ | ⟨-, e⟩ | ⟨hd, e⟩⟩ <;>
    rw [hr] at hr' <;> cases hr' <;> rw [e]
  · exact cellAt_congr rfl rfl a
  · exact cellAt_congr rfl rfl a
  · rw [stored_cellAt _ hd, if_neg ha]

/-- Only a failure of the sequence touches CTL_STATE, FAIL and the responses; else it stored its result and ip is the
address of a cell again. -/
theorem op3Execute_of_not_failed (h : (op3Execute name f ms p1 p2 p3 s).ctl ≠ .failed) :
    (op3Execute name f ms p1 p2 p3 s).ctl = s.ctl ∧ (op3Execute name f ms p1 p2 p3 s).fail = s.fail ∧
      (op3Execute name f ms p1 p2 p3 s).responses = s.responses ∧
      (op3Execute name f ms p1 p2 p3 s).ip = s.ip + 4 ∧ s.ip + 4 < s.size := by
  rcases op3Execute_ends name f ms p1 p2 p3 s with ⟨bad, -, e⟩ | ⟨o', -, ⟨-, -, e⟩ | ⟨-, e⟩ | ⟨-, e⟩⟩ <;>
    rw [e] at h ⊢
  · exact absurd rfl h
  · exact absurd rfl h
  · exact absurd rfl h
  · rcases Nat.lt_or_ge (s.ip + 4) s.size with hlt | hge
    · rw [advance_of_lt (by exact hlt)]
      exact ⟨rfl, rfl, rfl, rfl, hlt⟩
    · rw [advance_of_le (by exact hge)] at h
      exact absurd rfl h

/-- A failure of the sequence is sent as the run's one response, and FAIL names it; all but MissingHalt come before the
write and the advance. -/
theorem op3Execute_of_failed (hc : s.ctl ≠ .failed) (h : (op3Execute name f ms p1 p2 p3 s).ctl = .failed) :
    (op3Execute name f ms p1 p2 p3 s).responses =
        s.responses ++ [.runFailed (op3Execute name f ms p1 p2 p3 s).fail] ∧
      ((op3Execute name f ms p1 p2 p3 s).fail.kind ≠ .missingHalt →
        (op3Execute name f ms p1 p2 p3 s).mem = s.mem ∧ (op3Execute name f ms p1 p2 p3 s).ip = s.ip) ∧
      ((op3Execute name f ms p1 p2 p3 s).fail.kind = .missingHalt →
        (op3Execute name f ms p1 p2 p3 s).ip = s.ip + 4 ∧ s.size ≤ s.ip + 4) := by
  rcases op3Execute_ends name f ms p1 p2 p3 s with ⟨bad, -, e⟩ | ⟨o', -, ⟨-, -, e⟩ | ⟨-, e⟩ | ⟨-, e⟩⟩ <;>
    rw [e] at h ⊢
  · exact ⟨rfl, fun _ => ⟨rfl, rfl⟩, nofun⟩
  · exact ⟨rfl, fun _ => ⟨rfl, rfl⟩, nofun⟩
  · exact ⟨rfl, fun _ => ⟨rfl, rfl⟩, nofun⟩
  · rcases Nat.lt_or_ge (s.ip + 4) s.size with hlt | hge
    · rw [advance_of_lt (by exact hlt)] at h
      exact absurd h hc
    · rw [advance_of_le (by exact hge)]
      exact ⟨rfl, fun hk => absurd rfl hk, fun _ => ⟨rfl, hge⟩⟩

end

/-! ## ADD and MUL complete, and their frame (40_arithmetic.md section 2) -/

/-- Settles O15: the sequence with + completes. -/
theorem addCompletes : Obligations.AddCompletes :=
  fun _ _ _ _ _ hr hd hf hlt => ⟨_, exec_add .., op3Execute_completed_fields rfl hr hd hf hlt⟩

/-- Settles O16: the sequence with * completes. -/
theorem mulCompletes : Obligations.MulCompletes :=
  fun _ _ _ _ _ hr hd hf hlt => ⟨_, exec_mul .., op3Execute_completed_fields rfl hr hd hf hlt⟩

/-- Settles O17: what the sequence keeps, its cells by what the operands resolve to, and its end by CTL_STATE. -/
theorem arithmeticFrame : Obligations.ArithmeticFrame := by
  intro s t p1 p2 p3 i ms hinstr h
  obtain ⟨name, f, hexec⟩ := exec_op3_of_modes hinstr
  rw [hexec] at h
  cases h
  obtain ⟨hsize, htraceEn, hparams, hinputs, hcount, hready⟩ := op3Execute_keeps name f ms p1 p2 p3 s
  refine ⟨hsize, htraceEn, hparams, hinputs, hcount, hready, fun o hr a ha => op3Execute_cellAt_of_ne hr ha,
    fun bad hr a => ?_, fun hne => ?_⟩
  · rw [op3Execute_of_error hr]
    exact cellAt_congr rfl rfl a
  · obtain ⟨hctl, hfail, hresponses, -, -⟩ := op3Execute_of_not_failed hne
    exact ⟨hctl, hfail, hresponses⟩

/-- Settles O26: HALT does not fail, and ADD and MUL fail as their sequence does. -/
theorem failuresArePrecise : Obligations.FailuresArePrecise := by
  intro i s t hc h hfailed
  have hc' : s.ctl ≠ .failed := by rw [hc]; decide
  have hop3 : ∀ {name f ms p1 p2 p3}, op3Execute name f ms p1 p2 p3 s = t →
      (t.fail.kind ≠ .missingHalt → t.mem = s.mem ∧ t.ip = s.ip) ∧
      (t.fail.kind = .missingHalt → t.ip = s.ip + 4 ∧ s.size ≤ t.ip) := by
    rintro name f ms p1 p2 p3 rfl
    obtain ⟨-, hkeeps, hmissing⟩ := op3Execute_of_failed hc' hfailed
    exact ⟨hkeeps, fun hk => have ⟨hip, hle⟩ := hmissing hk; ⟨hip, hip ▸ hle⟩⟩
  cases i with
  | add p1 p2 p3 => cases h; exact hop3 rfl
  | mul p1 p2 p3 => cases h; exact hop3 rfl
  | halt => cases h; cases hfailed

/-- Settles O53: the next fetch reads the cells from ip + 4 on, which are those of `stored_cellAt`. -/
theorem nextFetchSeesTheWrite : Obligations.NextFetchSeesTheWrite := by
  intro s t p1 p2 p3 o i ms n k hinstr hr hd hf hlt h hk
  obtain ⟨r, hexec⟩ := exec_stored hinstr hr hd hf
  rw [hexec] at h
  cases h
  rw [fetchCells_get, if_pos hk, stored_cellAt _ hd, advance_ip]
  push_cast
  simp only [eq_comm, emitTrace_ip]

/-! ## Operand cells that do not exist (20_memory.md R34) -/

theorem readThrough_of_absent (c : Int) (m : AddressMode) (s : State) :
    readThrough (operandCell c none) m s = .error { addr := c, access := .read } := by
  cases m <;> rfl

theorem writeThrough_of_absent (c : Int) {m : AddressMode} (hm : m ≠ .immediate) :
    writeThrough c (operandCell c none) m = .error { addr := c, access := .read } := by
  cases m
  case immediate => exact absurd rfl hm
  all_goals rfl

/-- Settles O19: the missing cell is the first access of the resolutions that fails. -/
theorem absentOperandCellRaisesOutOfRange : Obligations.AbsentOperandCellRaisesOutOfRange := by
  intro s p1 p2 p3 i ms hinstr
  obtain ⟨name, f, hexec⟩ := exec_op3_of_modes hinstr
  rw [hexec]
  refine ⟨?_, ?_, ?_⟩
  · rintro rfl
    refine congrArg _ (op3Execute_of_error ?_)
    rw [resolveOperands, readThrough_of_absent]
    rfl
  · rintro v1 h1 rfl
    refine congrArg _ (op3Execute_of_error ?_)
    rw [resolveOperands, h1, readThrough_of_absent]
    rfl
  · rintro v1 v2 h1 h2 rfl
    refine ⟨fun hm => congrArg _ (op3Execute_of_error ?_), fun hm => ?_⟩
    · rw [resolveOperands, h1, h2, writeThrough_of_absent _ hm]
      rfl
    · rw [resolveOperands, h1, h2, hm]
      rfl

/-! ## The fetch (30_encoding.md R53) -/

/-- Settles O11: `fetchCells_get`, below the four cells it reads. -/
theorem fetchReadsMemoryFromIp : Obligations.FetchReadsMemoryFromIp :=
  fun s k hk => (fetchCells_get s k).trans (if_pos hk)

end Sys2Proof.Machine

/-! PROOFS. Family other, the step: it answers always, what it keeps, and the controller's table (42_controller.md
section 1, 10_state.md section 2). -/

namespace Sys2Proof.Machine

/-! ## Every step answers -/

theorem cycle_answers (s : State) : ∃ t, cycle s = .next t := by
  rcases cycle_by_opcode s with ⟨-, e⟩ | ⟨-, e⟩ | ⟨-, e⟩ | ⟨op, -, -, -, -, e⟩ | ⟨-, e⟩ <;> exact ⟨_, e⟩

theorem runCore_answers (s : State) : ∃ t, runCore s = .next t := by
  by_cases hc : s.ctl = .running
  · rw [runCore_running hc]
    exact cycle_answers s
  · exact ⟨s, runCore_idle hc⟩

theorem step_answers (s : State) : ∃ t, step s = .next t := by
  cases hi : s.inputs with
  | nil =>
    rw [step_of_no_input hi]
    exact runCore_answers _
  | cons i rest =>
    rw [step_of_input hi]
    cases i
    case idle => exact runCore_answers _
    all_goals exact ⟨_, rfl⟩

/-- Settles O47. -/
theorem everyStepAnswersANextState : Obligations.EveryStepAnswersANextState := step_answers

/-- Settles O12: the cycle on the counted state, with no input or after an idle one, is exec of what it decodes. -/
theorem stepRunsTheDecodedInstruction : Obligations.StepRunsTheDecodedInstruction := by
  refine fun s i hc hd => ⟨fun hi => (step_cycle hc hi).trans (cycle_of_decode hd), fun rest hi => ?_⟩
  rw [step_of_input hi, countStep_running hc]
  exact (runCore_running (by exact hc)).trans (cycle_of_decode hd)

/-! ## The parameters (00_scope.md section 4), and `cmd_ready` during a cycle -/

theorem exec_keeps {i : Instr} {s t : State} (h : exec i s = .next t) :
    t.params = s.params ∧ t.cmdOutstanding = s.cmdOutstanding := by
  cases i with
  | add p1 p2 p3 =>
    cases h
    obtain ⟨-, -, hparams, -, -, hready⟩ := op3Execute_keeps ..
    exact ⟨hparams, hready⟩
  | mul p1 p2 p3 =>
    cases h
    obtain ⟨-, -, hparams, -, -, hready⟩ := op3Execute_keeps ..
    exact ⟨hparams, hready⟩
  | halt =>
    cases h
    exact ⟨rfl, rfl⟩

theorem cycle_keeps {s t : State} (h : cycle s = .next t) :
    t.params = s.params ∧ t.cmdOutstanding = s.cmdOutstanding := by
  rcases cycle_cases s with ⟨i, -, e⟩ | ⟨op, -, e⟩ | ⟨-, e⟩ <;> rw [e] at h
  · exact exec_keeps h
  · cases h; exact ⟨rfl, rfl⟩
  · cases h; exact ⟨rfl, rfl⟩

theorem serve_keeps (c : Command) (s : State) :
    (serve c s).params = s.params ∧ (serve c s).cmdOutstanding = s.cmdOutstanding := by
  rcases serve_cases c s with ⟨r, e⟩ | ⟨-, -, e⟩ | ⟨v, -, -, -, e⟩ | ⟨a, v, m, dst, -, -, -, e⟩ | ⟨b, -, -, -, e⟩ |
    ⟨b, -, -, -, e⟩ <;> rw [e] <;> exact ⟨rfl, rfl⟩

theorem step_params {s t : State} (h : step s = .next t) : t.params = s.params := by
  rcases step_cases h with ⟨-, hcyc⟩ | ⟨-, -, rfl⟩ | ⟨-, rfl⟩ | ⟨c, out, -, -, rfl⟩ | ⟨-, -, r, rfl⟩ | ⟨-, -, rfl | rfl⟩
  case inl => exact (cycle_keeps (s := s.afterInput) hcyc).1
  case inr.inr.inr.inl => exact (serve_keeps c s.afterInput).1
  all_goals rfl

/-- Settles O46, by induction on the number of steps. -/
theorem parametersNeverChange : Obligations.ParametersNeverChange := by
  intro k s t h
  induction k generalizing s with
  | zero => cases h; rfl
  | succ k ih =>
    obtain ⟨u, hstep, hrun⟩ := runSteps_succ_next h
    exact (ih u hrun).trans (step_params hstep)

/-! ## Where ip is written (10_state.md section 2) -/

theorem op3Execute_ip (name : TraceName) (f : Int → Int → Int) (ms : OperandModes) (p1 p2 p3 : Option Cell)
    (s : State) :
    (op3Execute name f ms p1 p2 p3 s).ip = s.ip ∨ (op3Execute name f ms p1 p2 p3 s).ip = s.ip + 4 := by
  rcases op3Execute_ends name f ms p1 p2 p3 s with ⟨bad, -, e⟩ | ⟨o', -, ⟨-, -, e⟩ | ⟨-, e⟩ | ⟨-, e⟩⟩ <;> rw [e]
  · exact .inl rfl
  · exact .inl rfl
  · exact .inl rfl
  · exact .inr (advance_ip _)

theorem cycle_ip {s t : State} (h : cycle s = .next t) (hne : t.ip ≠ s.ip) :
    t.ip = s.ip + 4 ∧ (cellAt s.ip s = some 1 ∨ cellAt s.ip s = some 2) := by
  rcases cycle_by_opcode s with ⟨hop, e⟩ | ⟨hop, e⟩ | ⟨-, e⟩ | ⟨op, -, -, -, -, e⟩ | ⟨-, e⟩ <;> rw [e] at h <;> cases h
  · exact ⟨(op3Execute_ip ..).resolve_left hne, .inl hop⟩
  · exact ⟨(op3Execute_ip ..).resolve_left hne, .inr hop⟩
  all_goals exact absurd rfl hne

theorem serve_ip {c : Command} {s : State} (hne : (serve c s).ip ≠ s.ip) :
    (serve c s).ip = 0 ∧ (c = .loadClear ∨ ∃ b, c = .run b) := by
  rcases serve_cases c s with ⟨r, e⟩ | ⟨hc, -, e⟩ | ⟨v, -, -, -, e⟩ | ⟨a, v, m, dst, -, -, -, e⟩ | ⟨b, hc, -, -, e⟩ |
    ⟨b, hc, -, -, e⟩ <;> rw [e] at hne ⊢
  · exact absurd rfl hne
  · exact ⟨rfl, .inl hc⟩
  · exact absurd rfl hne
  · exact absurd rfl hne
  · exact ⟨rfl, .inr ⟨b, hc⟩⟩
  · exact ⟨rfl, .inr ⟨b, hc⟩⟩

/-- Settles O45, over the events of `step_cases`. -/
theorem ipIsWrittenNowhereElse : Obligations.IpIsWrittenNowhereElse := by
  intro s t h hne
  rcases step_cases h with ⟨hd, hcyc⟩ | ⟨-, -, rfl⟩ | ⟨hrst, rfl⟩ | ⟨c, out, hc, -, rfl⟩ | ⟨-, -, r, rfl⟩ |
    ⟨-, -, rfl | rfl⟩
  case inl =>
    obtain ⟨hip, hop⟩ := cycle_ip hcyc hne
    exact .inl ⟨hd, hip, hop⟩
  case inr.inr.inl => exact .inr ⟨rfl, .inl hrst⟩
  case inr.inr.inr.inl =>
    obtain ⟨hip, rfl | ⟨b, rfl⟩⟩ := serve_ip hne
    · exact .inr ⟨hip, .inr (.inl hc)⟩
    · exact .inr ⟨hip, .inr (.inr ⟨b, hc⟩)⟩
  all_goals exact absurd rfl hne

/-! ## The controller's table (42_controller.md section 1) -/

theorem commandTaken_of_cycleDue {s : State} (h : cycleDue s) : commandTaken s = none := by
  obtain ⟨-, hi | hi⟩ := h
  · simp [commandTaken, hi]
  · obtain ⟨rest, hi⟩ := List.head?_eq_some_iff.1 hi
    simp [commandTaken, hi]

theorem commandTaken_of_rst {s : State} (h : s.inputs.head? = some .rst) : commandTaken s = none := by
  obtain ⟨rest, hi⟩ := List.head?_eq_some_iff.1 h
  simp [commandTaken, hi]

theorem not_cycleDue_of_rst {s : State} (h : s.inputs.head? = some .rst) : ¬ cycleDue s := by
  rintro ⟨-, hi | hi⟩ <;> simp [hi] at h

/-- A step that takes a command serves it. -/
theorem step_of_commandTaken {s t : State} {c : Command} (h : step s = .next t) (hc : commandTaken s = some c) :
    ∃ out, t = { serve c s.afterInput with cmdOutstanding := out } := by
  rcases step_cases h with ⟨hd, -⟩ | ⟨-, hn, -⟩ | ⟨hrst, -⟩ | ⟨c', out, hc', -, e⟩ | ⟨hn, -⟩ | ⟨hn, -⟩
  · rw [commandTaken_of_cycleDue hd] at hc; cases hc
  · rw [hn] at hc; cases hc
  · rw [commandTaken_of_rst hrst] at hc; cases hc
  · rw [hc'] at hc
    cases hc
    exact ⟨out, e⟩
  · rw [hn] at hc; cases hc
  · rw [hn] at hc; cases hc

theorem step_of_cycleDue {s t : State} (h : step s = .next t) (hd : cycleDue s) : cycle s.afterInput = .next t := by
  rcases step_cases h with ⟨-, hcyc⟩ | ⟨hn, -⟩ | ⟨hrst, -⟩ | ⟨c, out, -, hn, -⟩ | ⟨-, hn, -⟩ | ⟨-, hn, -⟩
  · exact hcyc
  · exact absurd hd hn
  · exact absurd hd (not_cycleDue_of_rst hrst)
  · exact absurd hd hn
  · exact absurd hd hn
  · exact absurd hd hn

theorem step_of_rst {s t : State} (h : step s = .next t) (hrst : s.inputs.head? = some .rst) :
    t = assertReset s.afterInput := by
  obtain ⟨rest, hi⟩ := List.head?_eq_some_iff.1 hrst
  rw [step_rst hi, ← afterInput_of_input hi] at h
  cases h
  rfl

theorem serve_run_of_empty {s : State} (b : Bool) (hr : s.ctl = .ready) (hs : s.size = 0) :
    serve (.run b) s = raise .emptyProgram { s with traceEn := b, ip := 0 } :=
  (serve_idle (not_running_of_ready hr) _).trans (startRun_of_empty b hr hs)

theorem serve_run_of_cells {s : State} (b : Bool) (hr : s.ctl = .ready) (hs : 0 < s.size) :
    serve (.run b) s = { s with traceEn := b, fail := FailRecord.clear, ip := 0, ctl := .running } :=
  (serve_idle (not_running_of_ready hr) _).trans (startRun_of_cells b hr hs)

/-- A cycle at opcode 1 or 2 is `op3AtIp`. -/
theorem cycle_at_op3 {s : State} {ms : OperandModes} {f : Int → Int → Int}
    (hop : (cellAt s.ip s = some 1 ∧ ms = s.params.addModes ∧ f = fun a b => a + b) ∨
      (cellAt s.ip s = some 2 ∧ ms = s.params.mulModes ∧ f = fun a b => a * b)) :
    ∃ name, cycle s = .next (op3AtIp name f ms s) := by
  rcases hop with ⟨hop, rfl, rfl⟩ | ⟨hop, rfl, rfl⟩
  · exact ⟨_, cycle_at_add hop⟩
  · exact ⟨_, cycle_at_mul hop⟩

section
variable {name : TraceName} {f : Int → Int → Int} {ms : OperandModes} {p1 p2 p3 : Option Cell} {s t : State}
  {o : Op3Operands} (ht : op3Execute name f ms p1 p2 p3 s = t)
include ht

/-! The rows of a cycle at opcode 1 or 2, `t` being what the sequence ends in. -/

theorem op3_unresolved_row {bad : BadAccess} (hr : resolveOperands ms p1 p2 p3 s = .error bad) :
    t.ctl = .failed ∧ t.fail.kind = .outOfRange ∧ t.ip = s.ip ∧ t.mem = s.mem := by
  rw [← ht, op3Execute_of_error hr]
  exact ⟨rfl, rfl, rfl, rfl⟩

theorem op3_overflow_row (hr : resolveOperands ms p1 p2 p3 s = .ok o) (hm : s.params.overflowMode = .fault)
    (hf : fitsW s.params.width (f o.v1 o.v2) = false) :
    t.ctl = .failed ∧ t.fail.kind = .overflow ∧ t.ip = s.ip ∧ t.mem = s.mem := by
  rw [← ht, op3Execute_of_overflow hr hm hf]
  exact ⟨rfl, rfl, rfl, rfl⟩

theorem op3_badTarget_row (hr : resolveOperands ms p1 p2 p3 s = .ok o)
    (hf : s.params.overflowMode = .wrap ∨ fitsW s.params.width (f o.v1 o.v2) = true) (hd : validAddr o.dst s = false) :
    t.ctl = .failed ∧ t.fail.kind = .outOfRange ∧ t.ip = s.ip ∧ t.mem = s.mem := by
  rw [← ht, op3Execute_of_badTarget hr hd hf.symm]
  exact ⟨rfl, rfl, rfl, rfl⟩

theorem op3_stored_row (hc : s.ctl = .running) (hr : resolveOperands ms p1 p2 p3 s = .ok o)
    (hf : s.params.overflowMode = .wrap ∨ fitsW s.params.width (f o.v1 o.v2) = true) (hd : validAddr o.dst s = true) :
    cellAt o.dst t = some (wrapW s.params.width (f o.v1 o.v2)) ∧
      (∀ a, a ≠ o.dst → cellAt a t = cellAt a s) ∧ t.ip = s.ip + 4 ∧
      (s.ip + 4 < s.size → t.ctl = .running) ∧
      (s.size ≤ s.ip + 4 → t.ctl = .failed ∧ t.fail.kind = .missingHalt) := by
  have hcells := op3Execute_stored_cellAt (name := name) hr hd hf.symm
  rw [ht] at hcells
  refine ⟨(hcells _).trans (if_pos rfl), fun a ha => (hcells a).trans (if_neg ha), ?_, fun hlt => ?_, fun hle => ?_⟩
  · rw [← ht, op3Execute_stored hr hd hf.symm, advance_ip, emitTrace_ip]
  · rw [← ht, op3Execute_completes hr hd hf.symm hlt]
    exact hc
  · rw [← ht, op3Execute_stored hr hd hf.symm, advance_of_le (by exact hle)]
    exact ⟨rfl, rfl⟩

end

/-- Of the host's commands only LOAD_CLEAR outside a run and RUN in Ready change CTL_STATE. -/
theorem serve_ctl (c : Command) (s : State) :
    (serve c s).ctl = s.ctl ∨ (s.ctl ≠ .running ∧ c = .loadClear) ∨ (s.ctl = .ready ∧ ∃ b, c = .run b) := by
  rcases serve_cases c s with ⟨r, e⟩ | ⟨hc, hn, -⟩ | ⟨v, -, -, -, e⟩ | ⟨a, v, m, dst, -, -, -, e⟩ | ⟨b, hc, hr, -⟩ |
    ⟨b, hc, hr, -⟩
  · exact .inl (by rw [e]; rfl)
  · exact .inr (.inl ⟨hn, hc⟩)
  · exact .inl (by rw [e]; rfl)
  · exact .inl (by rw [e]; rfl)
  · exact .inr (.inr ⟨hr, b, hc⟩)
  · exact .inr (.inr ⟨hr, b, hc⟩)

/-- Every event that changes CTL_STATE. -/
theorem step_ctl {s t : State} (h : step s = .next t) (hne : t.ctl ≠ s.ctl) :
    cycleDue s ∨ s.inputs.head? = some .rst ∨ (s.ctl ≠ .running ∧ commandTaken s = some .loadClear) ∨
      (s.ctl = .ready ∧ ∃ b, commandTaken s = some (.run b)) := by
  rcases step_cases h with ⟨hd, -⟩ | ⟨-, -, rfl⟩ | ⟨hrst, -⟩ | ⟨c, out, hc, -, rfl⟩ | ⟨-, -, r, rfl⟩ |
    ⟨-, -, rfl | rfl⟩
  case inl => exact .inl hd
  case inr.inr.inl => exact .inr (.inl hrst)
  case inr.inr.inr.inl =>
    rcases serve_ctl c s.afterInput with hctl | ⟨hn, rfl⟩ | ⟨hr, b, rfl⟩
    · exact absurd hctl hne
    · exact .inr (.inr (.inl ⟨hn, hc⟩))
    · exact .inr (.inr (.inr ⟨hr, b, hc⟩))
  all_goals exact absurd rfl hne

/-- Settles O43: each row by what its event does, a RUN, a cycle by its opcode, LOAD_CLEAR, reset, and `step_ctl` for
the rest. -/
theorem controllerFollowsItsTable : Obligations.ControllerFollowsItsTable := by
  intro s t h
  refine ⟨fun b hr hc hs => ?_, fun b hr hc hs => ?_, fun hd hop => ?_, fun ms f hd hop => ?_,
    fun op hd hop h1 h2 h99 => ?_, fun hn hc => ?_, fun hrst => ?_, step_ctl h⟩
  · obtain ⟨out, rfl⟩ := step_of_commandTaken h hc
    rw [serve_run_of_empty (s := s.afterInput) b hr hs]
    exact ⟨rfl, rfl, rfl⟩
  · obtain ⟨out, rfl⟩ := step_of_commandTaken h hc
    rw [serve_run_of_cells (s := s.afterInput) b hr hs]
    exact ⟨rfl, rfl, rfl⟩
  · have hcyc := step_of_cycleDue h hd
    rw [cycle_at_halt (s := s.afterInput) hop] at hcyc
    exact (exec_halt_ends hcyc).1
  · obtain ⟨name, e⟩ := cycle_at_op3 (s := s.afterInput) hop
    have ht := Host.Outcome.next.inj (e.symm.trans (step_of_cycleDue h hd))
    exact ⟨fun bad hr => op3_unresolved_row (s := s.afterInput) ht hr,
      fun o hr => ⟨fun hm hf => op3_overflow_row (s := s.afterInput) ht hr hm hf,
        fun hf hv => op3_badTarget_row (s := s.afterInput) ht hr hf hv,
        fun hf hv => op3_stored_row (s := s.afterInput) ht hd.1 hr hf hv⟩⟩
  · have hcyc := step_of_cycleDue h hd
    rw [cycle_of_unknownOpcode (decode_at_unknown (s := s.afterInput) hop h1 h2 h99)] at hcyc
    cases hcyc
    exact ⟨rfl, rfl⟩
  · obtain ⟨out, rfl⟩ := step_of_commandTaken h hc
    rw [serve_idle (s := s.afterInput) hn]
    rfl
  · rw [step_of_rst h hrst]
    rfl

end Sys2Proof.Machine

/-! PROOFS. Family other, whole runs: what a run depends on, that it ends, and the values ip takes (42_controller.md
section 3). -/

namespace Sys2Proof.Machine

/-! ## A run depends on its view alone (42_controller.md R84) -/

/-- The state with this view, nothing traced, nothing waiting and nothing planned: the one that stands for every state of
the view. -/
def RunView.state (v : RunView) : State :=
  { ip := v.ip
    ctl := v.ctl
    fail := v.fail
    size := v.size
    mem := v.mem
    traceEn := false
    params := v.params
    inputs := []
    cmdOutstanding := false
    responses := []
    trace := []
    freeCount := 0 }

theorem fetchCells_view (s : State) : fetchCells s.view.state = fetchCells s := rfl

theorem resolveOperands_view (ms : OperandModes) (p1 p2 p3 : Option Cell) (s : State) :
    resolveOperands ms p1 p2 p3 s.view.state = resolveOperands ms p1 p2 p3 s := rfl

theorem raise_view (f : Failure) (s : State) : (raise f s.view.state).view = (raise f s).view := rfl

theorem advance_view (s : State) : (advance s.view.state).view = (advance s).view := by
  rcases advance_cases s with ⟨h, e⟩ | ⟨h, e⟩ <;> rw [e]
  · rw [advance_of_lt (s := s.view.state) h]
    rfl
  · rw [advance_of_le (s := s.view.state) h]
    rfl

theorem op3Finish_view (n dst : Int) (s : State) :
    (op3Finish n dst s.view.state).view = (op3Finish n dst s).view := by
  rcases op3Finish_cases n dst s with ⟨hf, hm, e⟩ | ⟨hf, ⟨hv, e⟩ | ⟨hv, e⟩⟩ <;> rw [e]
  · rw [op3Finish_overflow (s := s.view.state) hf hm]
    rfl
  · rw [op3Finish_bad (s := s.view.state) hf hv]
    rfl
  · rw [op3Finish_store (s := s.view.state) hf hv]
    exact advance_view { s with mem := Memory.put s.mem dst.toNat (wrapW s.params.width n) }

theorem op3Finish_view_congr {s s' : State} (h : s.view = s'.view) (n dst : Int) :
    (op3Finish n dst s).view = (op3Finish n dst s').view := by
  rw [← op3Finish_view n dst s, h, op3Finish_view]

theorem op3Execute_view (name : TraceName) (f : Int → Int → Int) (ms : OperandModes) (p1 p2 p3 : Option Cell)
    (s : State) :
    (op3Execute name f ms p1 p2 p3 s.view.state).view = (op3Execute name f ms p1 p2 p3 s).view := by
  rcases op3Execute_cases name f ms p1 p2 p3 s with ⟨bad, hr, e⟩ | ⟨o, hr, e⟩
  · rw [e, op3Execute_of_error ((resolveOperands_view ..).trans hr), raise_view]
  · rw [e, op3Execute_of_ok ((resolveOperands_view ..).trans hr)]
    exact op3Finish_view_congr (s := emitTrace _ s.view.state) (s' := emitTrace _ s) rfl _ _

theorem exec_view {i : Instr} {s t : State} (h : exec i s = .next t) :
    ∃ u, exec i s.view.state = .next u ∧ u.view = t.view := by
  cases i with
  | add p1 p2 p3 =>
    cases h
    exact ⟨_, exec_add .., op3Execute_view ..⟩
  | mul p1 p2 p3 =>
    cases h
    exact ⟨_, exec_mul .., op3Execute_view ..⟩
  | halt =>
    cases h
    exact ⟨_, exec_halt _, rfl⟩

theorem cycle_view {s t : State} (h : cycle s = .next t) :
    ∃ u, cycle s.view.state = .next u ∧ u.view = t.view := by
  rcases cycle_cases s with ⟨i, hd, e⟩ | ⟨op, hd, e⟩ | ⟨hd, e⟩ <;> rw [e] at h <;> rw [← fetchCells_view] at hd
  · rw [cycle_of_decode hd]
    exact exec_view h
  · cases h
    exact ⟨_, cycle_of_unknownOpcode hd, rfl⟩
  · cases h
    exact ⟨_, cycle_of_noOpcodeCell hd, rfl⟩

/-- Two cycles from one view end in one view: both go the way of the state that stands for it. -/
theorem cycle_view_congr {s s' t t' : State} (hv : s.view = s'.view) (h : cycle s = .next t)
    (h' : cycle s' = .next t') : t.view = t'.view := by
  obtain ⟨u, hu, hview⟩ := cycle_view h
  obtain ⟨u', hu', hview'⟩ := cycle_view h'
  rw [hv, hu'] at hu
  cases hu
  exact hview.symm.trans hview'

theorem step_view_congr {s s' t t' : State} (hi : s.inputs = []) (hi' : s'.inputs = []) (hv : s.view = s'.view)
    (h : step s = .next t) (h' : step s' = .next t') : t.view = t'.view := by
  have hctl : s.ctl = s'.ctl := congrArg RunView.ctl hv
  by_cases hc : s.ctl = .running
  · rw [step_cycle hc hi] at h
    rw [step_cycle (hctl ▸ hc) hi'] at h'
    exact cycle_view_congr (by exact hv) h h'
  · rw [step_rest hc hi] at h
    rw [step_rest (hctl ▸ hc) hi'] at h'
    cases h
    cases h'
    exact hv

/-- Settles O50, by induction on the number of steps with `step_view_congr`. -/
theorem runDependsOnItsViewAlone : Obligations.RunDependsOnItsViewAlone := by
  intro k
  induction k with
  | zero => exact fun s s' _ _ hv => ⟨s, s', rfl, rfl, hv⟩
  | succ k ih =>
    intro s s' hi hi' hv
    obtain ⟨u, hu⟩ := step_answers s
    obtain ⟨u', hu'⟩ := step_answers s'
    obtain ⟨t, t', ht, ht', hview⟩ := ih u u' (step_keeps_no_input hi hu) (step_keeps_no_input hi' hu')
      (step_view_congr hi hi' hv hu hu')
    exact ⟨t, t', (runSteps_succ hu k).trans ht, (runSteps_succ hu' k).trans ht', hview⟩

/-! ## A run ends, and counts ip by fours (42_controller.md R83, R85) -/

/-- The run is over, and its RUN got the one response of that end, `before` being the responses until then. -/
def RunAnswered (before : List Response) (t : State) : Prop :=
  (t.ctl = .halted ∧ t.responses = before ++ [.ok]) ∨
  (t.ctl = .failed ∧ t.responses = before ++ [.runFailed t.fail])

theorem RunAnswered.not_running {before : List Response} {t : State} (h : RunAnswered before t) : t.ctl ≠ .running := by
  rcases h with ⟨hc, -⟩ | ⟨hc, -⟩ <;> rw [hc] <;> decide

/-- The run goes on at the next instruction, and nothing was answered. -/
structure RunGoesOn (s t : State) : Prop where
  ctl       : t.ctl = .running
  ip        : t.ip = s.ip + 4
  ip_lt     : t.ip < t.size
  responses : t.responses = s.responses

theorem op3Execute_run (name : TraceName) (f : Int → Int → Int) (ms : OperandModes) (p1 p2 p3 : Option Cell)
    {s : State} (hc : s.ctl = .running) :
    RunAnswered s.responses (op3Execute name f ms p1 p2 p3 s) ∨ RunGoesOn s (op3Execute name f ms p1 p2 p3 s) := by
  by_cases hfailed : (op3Execute name f ms p1 p2 p3 s).ctl = .failed
  · obtain ⟨hresponses, -⟩ := op3Execute_of_failed (by rw [hc]; decide) hfailed
    exact .inl (.inr ⟨hfailed, hresponses⟩)
  · obtain ⟨hctl, -, hresponses, hip, hlt⟩ := op3Execute_of_not_failed hfailed
    obtain ⟨hsize, -⟩ := op3Execute_keeps name f ms p1 p2 p3 s
    exact .inr ⟨hctl.trans hc, hip, by rw [hip, hsize]; exact hlt, hresponses⟩

/-- A cycle of a run ends it with its response, or goes on four cells further. -/
theorem cycle_run {s t : State} (hc : s.ctl = .running) (h : cycle s = .next t) :
    RunAnswered s.responses t ∨ RunGoesOn s t := by
  rcases cycle_by_opcode s with ⟨-, e⟩ | ⟨-, e⟩ | ⟨-, e⟩ | ⟨op, -, -, -, -, e⟩ | ⟨-, e⟩ <;> rw [e] at h <;> cases h
  · exact op3Execute_run _ _ _ _ _ _ hc
  · exact op3Execute_run _ _ _ _ _ _ hc
  · exact .inl (.inl ⟨rfl, rfl⟩)
  · exact .inl (.inr ⟨rfl, rfl⟩)
  · exact .inl (.inr ⟨rfl, rfl⟩)

theorem step_run {s t : State} (hc : s.ctl = .running) (hi : s.inputs = []) (h : step s = .next t) :
    (RunAnswered s.responses t ∨ RunGoesOn s t) ∧ t.size = s.size := by
  rw [step_cycle hc hi] at h
  have hsize := cycle_size h
  exact ⟨(cycle_run (by exact hc) h).imp_right fun ⟨hctl, hip, hlt, hresponses⟩ =>
    ⟨hctl, hip, hlt, hresponses⟩, hsize⟩

/-- Enough steps to come to the end of memory end the run. -/
theorem run_ends {k : Nat} {s : State} (hc : s.ctl = .running) (hi : s.inputs = []) (hlt : s.ip < s.size)
    (hk : s.size ≤ s.ip + 4 * k) : ∃ t, runSteps k s = .next t ∧ RunAnswered s.responses t := by
  induction k generalizing s with
  | zero => omega
  | succ k ih =>
    obtain ⟨u, hstep⟩ := step_answers s
    have hinputs := step_keeps_no_input hi hstep
    rw [runSteps_succ hstep]
    obtain ⟨hends | hgoes, hsize⟩ := step_run hc hi hstep
    · exact ⟨u, runSteps_rest hends.not_running hinputs k, hends⟩
    · rw [← hgoes.responses]
      exact ih hgoes.ctl hinputs hgoes.ip_lt (by rw [hsize, hgoes.ip]; omega)

/-- Settles O51: ceil(SIZE / 4) steps of four cells come to the end of memory. -/
theorem everyRunEndsInTime : Obligations.EveryRunEndsInTime := by
  intro s hc hi hip hsize
  obtain ⟨t, hrun, hanswered⟩ := run_ends (k := (s.size + 3) / 4) hc hi (by omega) (by omega)
  refine ⟨t, hrun, ?_⟩
  rcases hanswered with ⟨hctl, hresponses⟩ | ⟨hctl, hresponses⟩
  · exact ⟨.inl hctl, fun _ => hresponses, by simp [hctl]⟩
  · exact ⟨.inr hctl, by simp [hctl], fun _ => hresponses⟩

theorem run_counts_by_fours {k : Nat} {s t : State} (hc : s.ctl = .running) (hi : s.inputs = [])
    (h : runSteps k s = .next t) (ht : t.ctl = .running) : t.ip = s.ip + 4 * k ∧ (k = 0 ∨ t.ip < t.size) := by
  induction k generalizing s with
  | zero => cases h; exact ⟨rfl, .inl rfl⟩
  | succ k ih =>
    obtain ⟨u, hstep, hrun⟩ := runSteps_succ_next h
    have hinputs := step_keeps_no_input hi hstep
    obtain ⟨hends | hgoes, -⟩ := step_run hc hi hstep
    · rw [runSteps_rest hends.not_running hinputs] at hrun
      cases hrun
      exact absurd ht hends.not_running
    · obtain ⟨hip, rfl | hlt⟩ := ih hgoes.ctl hinputs hrun
      · cases hrun
        exact ⟨hgoes.ip, .inr hgoes.ip_lt⟩
      · exact ⟨by rw [hip, hgoes.ip]; omega, .inr hlt⟩

/-- Settles O52: `run_counts_by_fours` from ip 0. -/
theorem ipCountsByFours : Obligations.IpCountsByFours := by
  intro k s t hc hi hip h ht
  obtain ⟨hcount, hlt⟩ := run_counts_by_fours hc hi h ht
  exact ⟨by rw [hcount, hip, Nat.zero_add], hlt⟩

end Sys2Proof.Machine

/-! PROOFS. Family other, the port: its command signals, its handshake and its outputs (42_controller.md section 5). -/

namespace Sys2Proof.Machine

/-! ## The command signals -/

theorem step_port {s : State} {p : CommandPort} {rest : List Input} (hi : s.inputs = .port p :: rest) :
    step s = .next (offerPort p { s.countStep with inputs := rest }) :=
  step_of_input hi

/-- A command offered while `cmd_ready` is high is served and then outstanding. -/
theorem step_port_taken {s : State} {p : CommandPort} {rest : List Input} (hi : s.inputs = .port p :: rest)
    (ho : s.cmdOutstanding = false) :
    step s = .next { servePort p { s.countStep with inputs := rest } with cmdOutstanding := true } := by
  rw [step_port hi]
  exact congrArg _ (if_neg (by rw [countStep_cmdOutstanding, ho]; decide))

theorem servePort_named {p : CommandPort} {c : Command} (hp : portCommand p = some c) (s : State) :
    servePort p s = serve c s := by
  simp [servePort, hp]

theorem portCommand_unassigned {p : CommandPort} (h : p.op = 6 ∨ p.op = 7) : portCommand p = none := by
  rcases h with h | h <;> simp [portCommand, h]

theorem servePort_unassigned {p : CommandPort} (h : p.op = 6 ∨ p.op = 7) (s : State) :
    servePort p s = serveUnassigned s := by
  simp [servePort, portCommand_unassigned h]

theorem serveUnassigned_running {s : State} (h : s.ctl = .running) : serveUnassigned s = respond .busy s := by
  simp [serveUnassigned, h]

theorem serveUnassigned_idle {s : State} (h : s.ctl ≠ .running) : serveUnassigned s = respond .runRejected s := by
  unfold serveUnassigned
  split <;> simp_all

theorem portCommand_assigned (p : CommandPort) :
    (p.op = 0 → portCommand p = some .loadClear) ∧ (p.op = 1 → portCommand p = some (.loadAppend p.data)) ∧
    (p.op = 2 → portCommand p = some (.peek p.addr (some (portMode p.mode)))) ∧
    (p.op = 3 → portCommand p = some (.poke p.addr p.data (some (portMode p.mode)))) ∧
    (p.op = 4 → portCommand p = some (.run p.trace)) ∧ (p.op = 5 → portCommand p = some .status) := by
  refine ⟨?_, ?_, ?_, ?_, ?_, ?_⟩ <;> intro h <;> simp [portCommand, h]

/-- Settles O36: the codes compute, a named command is served as `serve` does, and 6 and 7 are `serveUnassigned`. -/
theorem portSignalsNameTheCommands : Obligations.PortSignalsNameTheCommands := by
  refine ⟨fun p => ?_, rfl, rfl, rfl, rfl⟩
  obtain ⟨h0, h1, h2, h3, h4, h5⟩ := portCommand_assigned p
  refine ⟨h0, h1, h2, h3, h4, h5, portCommand_unassigned,
    fun s rest hi ho => ⟨fun c hc => ⟨_, step_command rfl, ?_⟩, fun h hc => ?_, fun h hc => ?_⟩⟩
  · rw [step_port_taken hi ho, servePort_named hc]
    rfl
  · rw [step_port_taken hi ho, servePort_unassigned h, countStep_running hc, serveUnassigned_running (by exact hc)]
    rfl
  · rw [step_port_taken hi ho, servePort_unassigned h, countStep_idle hc, serveUnassigned_idle (by exact hc)]
    rfl

/-! ## The handshake of the command channel -/

theorem runCore_cmdOutstanding {s t : State} (h : runCore s = .next t) : t.cmdOutstanding = s.cmdOutstanding := by
  by_cases hc : s.ctl = .running
  · rw [runCore_running hc] at h
    exact (cycle_keeps h).2
  · rw [runCore_idle hc] at h
    cases h
    rfl

/-- The events that change `cmd_ready`: reset, a command at the port, and the taking of a response. -/
theorem step_cmdOutstanding {s t : State} (h : step s = .next t) :
    t.cmdOutstanding = s.cmdOutstanding ∨
    (s.inputs.head? = some .rst ∧ t.cmdOutstanding = false) ∨
    (∃ p, s.inputs.head? = some (.port p) ∧ t.cmdOutstanding = true) ∨
    (s.inputs.head? = some .takeResponse ∧
      t.cmdOutstanding = (s.cmdOutstanding && (decide (s.ctl = .running) || !s.responses.tail.isEmpty))) := by
  cases hi : s.inputs with
  | nil =>
    rw [step_of_no_input hi] at h
    exact .inl (runCore_cmdOutstanding (s := s.countStep) h)
  | cons i rest =>
    rw [step_of_input hi] at h
    cases i with
    | rst => cases h; exact .inr (.inl ⟨rfl, rfl⟩)
    | command c => cases h; exact .inl (serve_keeps c _).2
    | port p =>
      cases h
      rcases offerPort_cases p { s.countStep with inputs := rest } with ⟨-, e⟩ | ⟨-, e⟩ <;> rw [e]
      · exact .inl rfl
      · exact .inr (.inr (.inl ⟨p, rfl, rfl⟩))
    | idle => exact .inl (runCore_cmdOutstanding (s := { s.countStep with inputs := rest }) h)
    | takeResponse => cases h; exact .inr (.inr (.inr ⟨rfl, rfl⟩))
    | takeTrace => cases h; exact .inl rfl

/-- A command sends one response, or starts the run whose response comes at its end. -/
theorem serve_responds (c : Command) (s : State) :
    (∃ r, (serve c s).responses = s.responses ++ [r]) ∨
    ((serve c s).responses = s.responses ∧ s.ctl = .ready ∧ (serve c s).ctl = .running) := by
  rcases serve_cases c s with ⟨r, e⟩ | ⟨-, -, e⟩ | ⟨v, -, -, -, e⟩ | ⟨a, v, m, dst, -, -, -, e⟩ | ⟨b, -, -, -, e⟩ |
    ⟨b, -, hr, -, e⟩ <;> rw [e]
  case inr.inr.inr.inr.inr => exact .inr ⟨rfl, hr, rfl⟩
  all_goals exact .inl ⟨_, rfl⟩

theorem servePort_responds (p : CommandPort) (s : State) :
    (∃ r, (servePort p s).responses = s.responses ++ [r]) ∨
    ((servePort p s).responses = s.responses ∧ s.ctl = .ready ∧ (servePort p s).ctl = .running) := by
  rcases servePort_cases p s with ⟨c, -, e⟩ | ⟨-, r, e⟩ <;> rw [e]
  · exact serve_responds c s
  · exact .inl ⟨r, rfl⟩

/-- Settles O37: what an offer does by `cmd_ready`, and `step_cmdOutstanding` for every change of it. -/
theorem portTakesOneCommandAtATime : Obligations.PortTakesOneCommandAtATime := by
  intro s t h
  refine ⟨rfl, fun p rest hi => ⟨fun ho => ?_, fun ho => ?_⟩, fun ho ht => ?_, fun ho ht => ?_, fun r rest hi hr hc => ?_⟩
  · rw [step_port hi, offerPort, if_pos (by exact ho)] at h
    cases h
    rfl
  · rw [step_port_taken hi ho] at h
    cases h
    exact ⟨rfl, servePort_responds p { s.countStep with inputs := rest }⟩
  · rcases step_cmdOutstanding h with e | ⟨hrst, -⟩ | ⟨p, -, e⟩ | ⟨htake, e⟩
    · rw [e, ho] at ht; cases ht
    · exact .inl hrst
    · rw [e] at ht; cases ht
    · refine .inr ⟨htake, fun hc => ?_⟩
      rw [ht, ho, hc] at e
      cases e
  · rcases step_cmdOutstanding h with e | ⟨-, e⟩ | ⟨p, hp, -⟩ | ⟨-, e⟩
    · rw [e, ho] at ht; cases ht
    · rw [e] at ht; cases ht
    · exact ⟨p, hp⟩
    · rw [e, ho] at ht; cases ht
  · rw [step_of_input hi] at h
    cases h
    simp [takeResponse, hr, hc]

/-! ## The outputs -/

theorem shownStatus_running {s : State} (h : s.ctl = .running) : shownStatus s = Config.freeStatus (s.freeCount + 1) := by
  simp [shownStatus, countStep_running h, h]

theorem shownStatus_idle {s : State} (h : s.ctl ≠ .running) : shownStatus s = statusRest s := by
  unfold shownStatus
  split <;> simp_all

/-- A STATUS taken now answers with what the `st_*` outputs show. -/
theorem step_status_shows (s : State) :
    ∃ t, step { s with inputs := [.command .status] } = .next t ∧
      t.responses = s.responses ++ [.okStatus s.ctl (shownStatus s)] := by
  obtain ⟨hstatus, -⟩ := statusShowsTheFields
  obtain ⟨hidle, hrunning⟩ := hstatus { s with inputs := [.command .status] } [] rfl
  by_cases hc : s.ctl = .running
  · exact ⟨_, hrunning hc, by rw [shownStatus_running hc, hc]⟩
  · exact ⟨_, hidle hc, by rw [shownStatus_idle hc]; rfl⟩

/-- Settles O38: the `st_*` outputs by `step_status_shows`, the others by the oldest entry of their list. -/
theorem portOutputsShowTheMachine : Obligations.PortOutputsShowTheMachine := by
  intro s
  obtain ⟨t, hstep, hresponses⟩ := step_status_shows s
  refine ⟨⟨t, shownStatus s, hstep, hresponses, rfl, rfl, rfl, rfl, rfl, rfl, rfl, rfl, rfl⟩, fun r more h => ?_,
    fun h => ?_, fun r more h => ?_, fun h => ?_⟩ <;> simp [portOutputs, h]

/-- Settles O39: the codes, the data and the names compute. -/
theorem responseCodesAndTraceNames : Obligations.ResponseCodesAndTraceNames :=
  ⟨fun _ _ _ _ _ => ⟨rfl, rfl, rfl, rfl, rfl, rfl, rfl, rfl, rfl, rfl, rfl⟩, rfl, rfl, rfl⟩

end Sys2Proof.Machine

/-! PROOFS. Family other, the invariant: it holds at reset and every step keeps it (10_state.md, 42_controller.md). -/

namespace Sys2Proof.Machine

/-! ## The part of the invariant that speaks of memory -/

/-- What `Inv` says of MEM, SIZE and the parameters. -/
structure MemInv (p : Params) (size : Nat) (m : Memory) : Prop where
  wf          : Memory.wf m = true
  below       : Memory.below m size = true
  fits        : Memory.fits p.width m = true
  cap_bounds  : 1 ≤ p.memCap ∧ p.memCap + 4 ≤ 2 ^ (p.width - 1)
  size_le_cap : size ≤ p.memCap

theorem Inv.memInv {s : State} (h : Inv s) : MemInv s.params s.size s.mem :=
  ⟨h.mem_wf, h.mem_below, h.mem_fits, h.cap_bounds, h.size_le_cap⟩

section
variable {p : Params} {size : Nat} {m : Memory}

theorem MemInv.width_pos (h : MemInv p size m) : 1 ≤ p.width := by
  obtain ⟨-, hcap⟩ := h.cap_bounds
  by_contra hw
  have hw : p.width = 0 := by omega
  simp [hw] at hcap

theorem MemInv.put (h : MemInv p size m) {a : Nat} {v : Cell} (ha : a < size) (hv : fitsW p.width v = true) :
    MemInv p size (Memory.put m a v) :=
  ⟨Memory.wf_put a v h.wf, Memory.below_put v ha h.below, Memory.fits_put a hv h.fits, h.cap_bounds, h.size_le_cap⟩

theorem MemInv.append (h : MemInv p size m) {v : Cell} (hroom : size ≠ p.memCap) (hv : fitsW p.width v = true) :
    MemInv p (size + 1) (Memory.put m size v) :=
  ⟨Memory.wf_put size v h.wf, Memory.below_put v (Nat.lt_succ_self size) (Memory.below_mono (Nat.le_succ size) h.below),
    Memory.fits_put size hv h.fits, h.cap_bounds, Nat.lt_of_le_of_ne h.size_le_cap hroom⟩

theorem memInv_empty (hcap : 1 ≤ p.memCap ∧ p.memCap + 4 ≤ 2 ^ (p.width - 1)) : MemInv p 0 [] :=
  ⟨rfl, rfl, rfl, hcap, Nat.zero_le _⟩

/-- An address up to SIZE + 3 is a W-bit value, since MEM_CAP leaves room for it (00_scope.md R6). -/
theorem MemInv.addr_fits (h : MemInv p size m) {a : Int} (h0 : 0 ≤ a) (ha : a ≤ size + 3) : fitsW p.width a = true := by
  obtain ⟨-, hcap⟩ := h.cap_bounds
  have hsize := h.size_le_cap
  have hcap' : (p.memCap : Int) + 4 ≤ 2 ^ (p.width - 1) := by exact_mod_cast hcap
  rw [fitsW_iff]
  omega

end

theorem MemInv.cellAt_fits {s : State} (h : MemInv s.params s.size s.mem) {a : Int} {v : Cell}
    (hv : cellAt a s = some v) : fitsW s.params.width v = true := by
  obtain ⟨-, rfl⟩ := cellAt_eq_some.1 hv
  exact Memory.fits_get _ h.fits

/-! ## States that meet the invariant, by their controller state -/

theorem clear_shaped : FailRecord.Shaped FailRecord.clear :=
  ⟨fun _ => rfl, fun _ => ⟨rfl, rfl⟩, nofun⟩

theorem inv_of_fail_clear {s : State} (hm : MemInv s.params s.size s.mem) (hip : s.ip ≤ s.size + 3)
    (hrun : s.ctl = .running → s.ip < s.size ∧ s.ip % 4 = 0) (hready : s.ctl = .ready → s.ip = 0 ∧ s.traceEn = false)
    (hctl : s.ctl ≠ .failed) (hfail : s.fail = FailRecord.clear)
    (hout : s.cmdOutstanding = true → s.ctl = .running ∨ s.responses ≠ []) : Inv s where
  mem_wf := hm.wf
  mem_below := hm.below
  mem_fits := hm.fits
  cap_bounds := hm.cap_bounds
  size_le_cap := hm.size_le_cap
  ip_le := hip
  running_fetch := hrun
  ready_fresh := hready
  fail_clear _ := hfail
  failed_named h := absurd h hctl
  fail_shaped := hfail ▸ clear_shaped
  fail_fits := by rw [hfail]; exact ⟨fitsW_zero _, fitsW_zero _⟩
  outstanding := hout

theorem inv_ready {s : State} (hm : MemInv s.params s.size s.mem) (hctl : s.ctl = .ready) (hip : s.ip = 0)
    (htrace : s.traceEn = false) (hfail : s.fail = FailRecord.clear)
    (hout : s.cmdOutstanding = true → s.responses ≠ []) : Inv s :=
  inv_of_fail_clear hm (by omega) (fun h => absurd h (not_running_of_ready hctl)) (fun _ => ⟨hip, htrace⟩)
    (by rw [hctl]; decide) hfail fun h => .inr (hout h)

/-- The info of the failure is made of W-bit values, and an OutOfRange names its access. -/
def Failure.Fits (w : Nat) : Failure → Prop
  | .unknownOpcode op => fitsW w op = true
  | .outOfRange bad => fitsW w bad.addr = true ∧ bad.access ≠ .none
  | .emptyProgram => True
  | .missingHalt => True
  | .overflow => True

theorem Failure.Fits.record {w : Nat} {f : Failure} (h : f.Fits w) (ip : Nat) :
    (f.record ip).Shaped ∧ fitsW w (f.record ip).opcode = true ∧ fitsW w (f.record ip).addr = true := by
  refine ⟨⟨record_opcode_of_kind_ne f ip, record_access_of_kind_ne f ip, ?_⟩, ?_⟩
  · cases f with
    | outOfRange bad => exact fun _ => h.2
    | _ => nofun
  · cases f with
    | unknownOpcode op => exact ⟨h, fitsW_zero w⟩
    | outOfRange bad => exact ⟨fitsW_zero w, h.1⟩
    | _ => exact ⟨fitsW_zero w, fitsW_zero w⟩

/-- The failure entry meets the invariant. -/
theorem inv_raise {f : Failure} {s : State} (hm : MemInv s.params s.size s.mem) (hip : s.ip ≤ s.size + 3)
    (hf : f.Fits s.params.width) : Inv (raise f s) where
  mem_wf := hm.wf
  mem_below := hm.below
  mem_fits := hm.fits
  cap_bounds := hm.cap_bounds
  size_le_cap := hm.size_le_cap
  ip_le := hip
  running_fetch := nofun
  ready_fresh := nofun
  fail_clear h := absurd rfl h
  failed_named _ := ⟨record_kind_ne_none f s.ip, record_ip f s.ip⟩
  fail_shaped := (hf.record s.ip).1
  fail_fits := (hf.record s.ip).2
  outstanding _ := .inr (by simp)

/-! ## Updates that keep the invariant -/

/-- The channels, the host's plans and the model's counter are free but for a command outstanding at the port. -/
theorem Inv.withChannels {s : State} (h : Inv s) (inputs : List Input) (out : Bool) (responses : List Response)
    (trace : List TraceRecord) (count : Nat) (hout : out = true → s.ctl = .running ∨ responses ≠ []) :
    Inv { s with
      inputs := inputs, cmdOutstanding := out, responses := responses, trace := trace, freeCount := count } where
  mem_wf := h.mem_wf
  mem_below := h.mem_below
  mem_fits := h.mem_fits
  cap_bounds := h.cap_bounds
  size_le_cap := h.size_le_cap
  ip_le := h.ip_le
  running_fetch := h.running_fetch
  ready_fresh := h.ready_fresh
  fail_clear := h.fail_clear
  failed_named := h.failed_named
  fail_shaped := h.fail_shaped
  fail_fits := h.fail_fits
  outstanding := hout

/-- A response sent is one waiting. -/
theorem Inv.responded {s : State} (h : Inv s) (r : Response) (out : Bool) :
    Inv { respond r s with cmdOutstanding := out } :=
  h.withChannels _ _ _ _ _ fun _ => .inr (by simp)

theorem Inv.withMem {s : State} (h : Inv s) {m : Memory} (hm : MemInv s.params s.size m) :
    Inv { s with mem := m } where
  mem_wf := hm.wf
  mem_below := hm.below
  mem_fits := hm.fits
  cap_bounds := h.cap_bounds
  size_le_cap := h.size_le_cap
  ip_le := h.ip_le
  running_fetch := h.running_fetch
  ready_fresh := h.ready_fresh
  fail_clear := h.fail_clear
  failed_named := h.failed_named
  fail_shaped := h.fail_shaped
  fail_fits := h.fail_fits
  outstanding := h.outstanding

theorem Inv.afterInput {s : State} (h : Inv s) : Inv s.afterInput :=
  h.withChannels _ _ _ _ _ h.outstanding

theorem Inv.takeResponse {s : State} (h : Inv s) : Inv (takeResponse s) := by
  refine h.withChannels _ _ _ _ _ fun hout => ?_
  simpa using (Bool.and_eq_true_iff.1 hout).2

theorem Inv.takeTrace {s : State} (h : Inv s) : Inv (takeTrace s) :=
  h.withChannels _ _ _ _ _ h.outstanding

theorem Inv.assertReset {s : State} (h : Inv s) : Inv (assertReset s) :=
  inv_ready (memInv_empty h.cap_bounds) rfl rfl rfl rfl nofun

/-! ## A cycle keeps the invariant -/

/-- Where the resolutions of a cycle end: at one of their three accesses, or with the resolver's target. -/
theorem resolveOperands_fetched_cases (ms : OperandModes) (s : State) :
    (∃ bad, resolveOperands ms (cellAt (s.ip + 1) s) (cellAt (s.ip + 2) s) (cellAt (s.ip + 3) s) s = .error bad ∧
      (resolveRead (s.ip + 1) ms.m1 s = .error bad ∨ resolveRead (s.ip + 2) ms.m2 s = .error bad ∨
        resolveWrite (s.ip + 3) ms.m3 s = .error bad)) ∨
    (∃ o, resolveOperands ms (cellAt (s.ip + 1) s) (cellAt (s.ip + 2) s) (cellAt (s.ip + 3) s) s = .ok o ∧
      resolveWrite (s.ip + 3) ms.m3 s = .ok o.dst) := by
  rw [resolveOperands_fetched]
  cases h1 : resolveRead (s.ip + 1) ms.m1 s with
  | error bad => exact .inl ⟨bad, rfl, .inl rfl⟩
  | ok v1 =>
    cases h2 : resolveRead (s.ip + 2) ms.m2 s with
    | error bad => exact .inl ⟨bad, rfl, .inr (.inl rfl)⟩
    | ok v2 =>
      cases h3 : resolveWrite (s.ip + 3) ms.m3 s with
      | error bad => exact .inl ⟨bad, rfl, .inr (.inr rfl)⟩
      | ok dst => exact .inr ⟨⟨v1, v2, dst⟩, rfl, rfl⟩

section
variable {s : State} {c : Int} {mode : AddressMode}

/-- An access that the resolver turns away at an operand cell up to SIZE + 3 is of a W-bit address: that cell's, or the
value of a cell. -/
theorem resolveRead_error_fits (h : MemInv s.params s.size s.mem) (h0 : 0 ≤ c) (hc : c ≤ s.size + 3) {bad : BadAccess}
    (he : resolveRead c mode s = .error bad) : (Failure.outOfRange bad).Fits s.params.width := by
  obtain ⟨haccess, -, haddr⟩ := resolveRead_error he
  refine ⟨?_, by rw [haccess]; decide⟩
  rcases haddr with haddr | ⟨v, hv, haddr⟩ <;> rw [haddr]
  · exact h.addr_fits h0 hc
  · exact h.cellAt_fits hv

theorem resolveWrite_error_fits (h : MemInv s.params s.size s.mem) (h0 : 0 ≤ c) (hc : c ≤ s.size + 3) {bad : BadAccess}
    (he : resolveWrite c mode s = .error bad) : (Failure.outOfRange bad).Fits s.params.width :=
  resolveRead_error_fits h h0 hc ((resolveRead_immediate c s).trans (resolveWrite_error he))

theorem resolveWrite_fits (h : MemInv s.params s.size s.mem) (h0 : 0 ≤ c) (hc : c ≤ s.size + 3) {dst : Int}
    (hw : resolveWrite c mode s = .ok dst) : fitsW s.params.width dst = true := by
  cases mode with
  | immediate => cases hw; exact h.addr_fits h0 hc
  | position => exact h.cellAt_fits (memRead_eq_ok.1 hw)
  | display => exact h.cellAt_fits (memRead_eq_ok.1 hw)

end

/-- In a run, an access of the resolutions that fails is of a W-bit address, and so is the destination. -/
theorem resolveOperands_fetched_fits {ms : OperandModes} {s : State} (hm : MemInv s.params s.size s.mem)
    (hlt : s.ip < s.size) :
    (∀ bad, resolveOperands ms (cellAt (s.ip + 1) s) (cellAt (s.ip + 2) s) (cellAt (s.ip + 3) s) s = .error bad →
      (Failure.outOfRange bad).Fits s.params.width) ∧
    (∀ o, resolveOperands ms (cellAt (s.ip + 1) s) (cellAt (s.ip + 2) s) (cellAt (s.ip + 3) s) s = .ok o →
      fitsW s.params.width o.dst = true) := by
  rcases resolveOperands_fetched_cases ms s with ⟨bad, e, he⟩ | ⟨o, e, hw⟩ <;> rw [e]
  · refine ⟨fun bad' h => ?_, nofun⟩
    cases h
    rcases he with he | he | he
    · exact resolveRead_error_fits hm (by omega) (by omega) he
    · exact resolveRead_error_fits hm (by omega) (by omega) he
    · exact resolveWrite_error_fits hm (by omega) (by omega) he
  · refine ⟨nofun, fun o' h => ?_⟩
    cases h
    exact resolveWrite_fits hm (by omega) (by omega) hw

/-- The advance after an instruction of a run: on to a cell, or MissingHalt at most three beyond SIZE. -/
theorem inv_advance {s : State} (hm : MemInv s.params s.size s.mem) (hctl : s.ctl = .running)
    (hfail : s.fail = FailRecord.clear) (hlt : s.ip < s.size) (hmul : s.ip % 4 = 0) : Inv (advance s) := by
  rcases advance_cases s with ⟨hnext, e⟩ | ⟨-, e⟩ <;> rw [e]
  · refine inv_of_fail_clear hm (by exact Nat.le_add_right_of_le hnext.le) (fun _ => ⟨hnext, ?_⟩)
      (fun h => absurd hctl (not_running_of_ready h)) (by rw [hctl]; decide) hfail fun _ => .inl hctl
    exact (Nat.add_mod_right s.ip 4).trans hmul
  · refine inv_raise hm ?_ trivial
    show s.ip + 4 ≤ s.size + 3
    omega

theorem inv_op3AtIp (name : TraceName) (f : Int → Int → Int) (ms : OperandModes) {s : State} (h : Inv s)
    (hc : s.ctl = .running) : Inv (op3AtIp name f ms s) := by
  have hm := h.memInv
  obtain ⟨hlt, hmul⟩ := h.running_fetch hc
  obtain ⟨hbad, hdst⟩ := resolveOperands_fetched_fits (ms := ms) hm hlt
  unfold op3AtIp
  rcases op3Execute_ends name f ms (cellAt (s.ip + 1) s) (cellAt (s.ip + 2) s) (cellAt (s.ip + 3) s) s with
    ⟨bad, hr, e⟩ | ⟨o, hr, ⟨-, -, e⟩ | ⟨-, e⟩ | ⟨hd, e⟩⟩ <;> rw [e]
  · exact inv_raise hm h.ip_le (hbad bad hr)
  · exact inv_raise hm h.ip_le trivial
  · exact inv_raise hm h.ip_le ⟨hdst o hr, nofun⟩
  · rw [validAddr_iff] at hd
    exact inv_advance (hm.put (by omega) (fitsW_wrapW hm.width_pos _)) hc (h.fail_clear (by rw [hc]; decide)) hlt hmul

theorem Inv.haltRun {s : State} (h : Inv s) (hc : s.ctl = .running) (r : TraceRecord) :
    Inv (haltRun (emitTrace r s)) :=
  inv_of_fail_clear h.memInv h.ip_le nofun nofun nofun (h.fail_clear (by rw [hc]; decide)) fun _ => .inr (by simp)

theorem inv_cycle {s t : State} (h : Inv s) (hc : s.ctl = .running) (hcyc : cycle s = .next t) : Inv t := by
  have hm := h.memInv
  obtain ⟨hlt, -⟩ := h.running_fetch hc
  rcases cycle_by_opcode s with ⟨-, e⟩ | ⟨-, e⟩ | ⟨-, e⟩ | ⟨op, hop, -, -, -, e⟩ | ⟨-, e⟩ <;> rw [e] at hcyc <;> cases hcyc
  · exact inv_op3AtIp _ _ _ h hc
  · exact inv_op3AtIp _ _ _ h hc
  · exact h.haltRun hc _
  · exact inv_raise hm h.ip_le (hm.cellAt_fits hop)
  · exact inv_raise hm h.ip_le ⟨hm.addr_fits (by simp) (by dsimp only; omega), nofun⟩

/-! ## A command keeps the invariant -/

/-- A command keeps the invariant even if it is then outstanding: it answers, or starts a run. -/
theorem inv_serve {s : State} (h : Inv s) (c : Command) (out : Bool) :
    Inv { serve c s with cmdOutstanding := out } := by
  have hm := h.memInv
  rcases serve_cases c s with ⟨r, e⟩ | ⟨-, -, e⟩ | ⟨v, -, hr, hs, e⟩ | ⟨a, v, m, dst, -, -, hd, e⟩ | ⟨b, -, -, -, e⟩ |
    ⟨b, -, -, hs, e⟩ <;> rw [e]
  · exact h.responded r out
  · exact inv_ready (memInv_empty h.cap_bounds) rfl rfl rfl rfl fun _ => by simp
  · obtain ⟨hip, htrace⟩ := h.ready_fresh hr
    exact inv_ready (hm.append hs (fitsW_wrapW hm.width_pos v)) hr hip htrace (h.fail_clear (by rw [hr]; decide))
      fun _ => by simp
  · rw [validAddr_iff] at hd
    exact (h.withMem (hm.put (by omega) (fitsW_wrapW hm.width_pos v))).responded .ok out
  · exact (inv_raise (f := .emptyProgram) (s := { s with traceEn := b, ip := 0 }) hm (Nat.zero_le _)
      trivial).withChannels _ _ _ _ _ fun _ => .inr (by simp)
  · exact inv_of_fail_clear hm (Nat.zero_le _) (fun _ => ⟨hs, rfl⟩) nofun nofun rfl fun _ => .inl rfl

/-- Settles O55, over the events of `step_cases`. -/
theorem everyStepKeepsTheInvariant : Obligations.EveryStepKeepsTheInvariant := by
  intro s t h hstep
  have ha := h.afterInput
  rcases step_cases hstep with ⟨⟨hc, -⟩, hcyc⟩ | ⟨-, -, rfl⟩ | ⟨-, rfl⟩ | ⟨c, out, -, -, rfl⟩ | ⟨-, -, r, rfl⟩ |
    ⟨-, -, rfl | rfl⟩
  · exact inv_cycle ha hc hcyc
  · exact ha
  · exact ha.assertReset
  · exact inv_serve ha c out
  · exact ha.responded r true
  · exact ha.takeResponse
  · exact ha.takeTrace

/-! ## Reset (70_reset_and_hazards.md R115) -/

/-- The one thing known of MEM_CAP after reset (log 3). -/
theorem memCap_bounds : 1 ≤ Config.memCap ∧ Config.memCap ≤ 2 ^ 63 - 4 := by
  have h := Config.memCapAboveOne.isLt
  unfold Config.memCap
  omega

/-- Settles O54: Ready, with an empty memory and the bounds of MEM_CAP. -/
theorem invariantHoldsAtReset : Obligations.InvariantHoldsAtReset :=
  inv_ready (memInv_empty (p := Params.default)
    ⟨memCap_bounds.1, Nat.add_le_of_le_sub (by decide) memCap_bounds.2⟩) rfl rfl rfl rfl nofun

/-- Settles O41: every field but MEM_CAP has its value by definition. -/
theorem resetStateHasTheResetValues : Obligations.ResetStateHasTheResetValues :=
  ⟨rfl, rfl, rfl, rfl, cellAt_of_size_zero rfl, rfl, rfl, rfl, rfl, rfl, rfl, rfl, rfl, rfl, memCap_bounds⟩

end Sys2Proof.Machine
